-- ==== Sys2Proof/Word.lean ====
section
/-! DEFINITION. The bit-vector types of the core (rules R3, R5, R22, R23, R18, R26 of spec/): what the manual
treats as bits. Every offset, index, length and size is a natural number (rule R7), so no type stands here for them. -/

namespace Sys2Proof

/-- A byte: 8 bits, bit 7 the most significant (R5). -/
abbrev Byte := BitVec 8

/-- The nibble `BYTE1[7:4]` of a short back-reference (R64). -/
abbrev Nibble := BitVec 4

/-- The 12-bit distance field `DIST` (R3 `DIST_W`, R67). -/
abbrev Dist := BitVec 12

/-- The 16-bit control selector `MASK` (R3 `MASK_W`, R22). -/
abbrev Mask := BitVec 16

/-- The 32-bit `decoded_length` (R3 `DLEN_W`, R18). -/
abbrev Length32 := BitVec 32

/-- The eight reserved header bytes 8 to 15, byte 8 the most significant (R61, R69). -/
abbrev Reserved64 := BitVec 64

end Sys2Proof
end

