-- ==== Sys2Proof/Config.lean ====
section
/-! DEFINITION. The fixed parameters of the core (rule R3), what an implementation fixes (rule R4: `AW`), what an
unlisted byte of each memory space reads as, and the free values: opaque constants that no proof can evaluate. -/

namespace Sys2Proof.Config

/-- `HDR_SIZE`: bytes of header before the payload (R3). -/
abbrev hdrSize : Nat := 16

/-- `MAGIC`: the characters `Y a z 0` in address order (R3, R83).
PRESUMED: the codes 59 61 7A 30 are the ASCII standard's (93 G1, log 21). Unsafe if the hardware's character code differs. -/
def magic : List Byte := [0x59#8, 0x61#8, 0x7A#8, 0x30#8]

/-- `MASK_RELOAD`: the value of `MASK` after a control fetch (R3, R92). -/
abbrev maskReload : Mask := 0x0080#16

/-- `WINDOW`: the size of the circular history buffer (R3, R44). -/
abbrev window : Nat := 4096

/-- `SHORT_BIAS` (R3, R107). -/
abbrev shortBias : Nat := 2

/-- `LONG_BIAS` (R3, R108). -/
abbrev longBias : Nat := 18

/-- `LEN_MIN`, the least length of a back-reference (R3). -/
abbrev lenMin : Nat := 3

/-- `LEN_MAX`, the greatest length of a back-reference (R3). -/
abbrev lenMax : Nat := 273

/-- How far the width `AW` of `IN_SIZE` exceeds 5: fixed by the implementation, OPEN in the spec (R4, 92 D3). No body. -/
opaque awAboveFive : Nat

/-- `AW`, the width of `IN_SIZE`: OPEN, at least 5 (R4, log 14). -/
def aw : Nat := 5 + awAboveFive

/-- The three memory spaces (R40, R42, R44). -/
inductive Space where
  | input
  | output
  | history
  deriving DecidableEq, Repr

/-- What an address that no cell lists reads as. IN: no value, so that reading a byte nobody placed faults
(DESIGN CHOICE, log 6, safe). OUT: zero, as decode start leaves it (R51, R87), and before the first run too (DESIGN
CHOICE, log 5, unsafe). HIST: no value, so that a slot nothing has written is a free one (R28, log 27, safe). -/
def unlisted : Space → Option Byte
  | .input => none
  | .output => some 0#8
  | .history => none

/-- Free values of `w` bits: what a register with no value holds (R28, R29) and what the host reads where the spec
says the value is unspecified (U3, U4). The argument is `State.draws`. No body: no proof sees a value (log 7, log 8). -/
opaque freeBits (w : Nat) (draw : Nat) : BitVec w

/-- Free values of the slots of HIST that nothing has written since HIST last lost its values, which was at draw `fill`
(R28; log 27). No body. -/
opaque freeSlot (fill : Nat) (slot : Nat) : Byte

/-- Free natural numbers, for the working registers that hold mathematical integers (R7, R28, R29; log 7). No body. -/
opaque freeNat (draw : Nat) : Nat

end Sys2Proof.Config
end

