-- ==== Sys2Proof/Syntax.lean ====
section
/-! DEFINITION. The instructions of the core: the tokens of the compressed stream, one constructor per row of
spec/opcode_table.json (rules R60 to R65, R73), and the mode in which the next bytes are decoded (rule R66). -/

namespace Sys2Proof

/-- One token of the stream (R73). -/
inductive Instr where
  /-- `HDR`: the 16-byte header record with the right magic: `decoded_length` and the ignored bytes 8 to 15 (R61, R88). -/
  | hdr (dlen : Length32) (reserved : Reserved64)
  /-- `CTRL`: a control byte `c7 .. c0` (R62). -/
  | ctrl (c : Byte)
  /-- `LIT`: a literal byte `imm8` (R63). -/
  | lit (imm8 : Byte)
  /-- `REFS`: the short back-reference, length nibble `n` and distance field (R64). -/
  | refs (n : Nibble) (dist : Dist)
  /-- `REFL`: the long back-reference, distance field and length byte `m` (R65). -/
  | refl (dist : Dist) (m : Byte)
  deriving DecidableEq, Repr

/-- What the decoder knows from where a byte stands (R66): the header record at IN address 0, a control byte
(`MASK = 0` after the shift), a literal (`CBIT = 1`) or a back-reference (`CBIT = 0`). -/
inductive Mode where
  | header
  | control
  | literal
  | backref
  deriving DecidableEq, Repr

/-- The mode in which a token is decoded (R66). -/
def Instr.mode : Instr → Mode
  | .hdr _ _ => .header
  | .ctrl _ => .control
  | .lit _ => .literal
  | .refs _ _ => .backref
  | .refl _ _ => .backref

/-- Bytes in a token (R66, R61). -/
def Instr.size : Instr → Nat
  | .hdr _ _ => 16
  | .ctrl _ => 1
  | .lit _ => 1
  | .refs _ _ => 2
  | .refl _ _ => 3

end Sys2Proof
end

