-- ==== Sys2Proof/WellFormed.lean ====
section
/-! DEFINITION. The checks a token's operands must pass to have an encoding (rules R64, R70): only the length nibble
of a short back-reference is restricted, it is not 0. -/

namespace Sys2Proof

/-- A term of `Instr` that some bytes of a stream encode: `REFS` needs `n != 0` (R64); every other operand value is
legal (R70). -/
def Instr.wf : Instr → Bool
  | .hdr _ _ => true
  | .ctrl _ => true
  | .lit _ => true
  | .refs n _ => n != 0#4
  | .refl _ _ => true

end Sys2Proof
end

