-- ==== Sys2Proof/Decode.lean ====
section
/-! DEFINITION. Decoding and encoding of tokens (rules R60 to R72): fields of the formats H, C, L, B2 and B3, a total
decoder on any bytes in each mode, the encoder, the pseudo-instruction REF, and the decoder on words numbered as
spec/opcode_table.json numbers them. -/

namespace Sys2Proof

/-! ### Fields -/

/-- `be32(b0, b1, b2, b3)`, the first byte the most significant (R8, R46). -/
def be32 (b0 b1 b2 b3 : Byte) : Length32 := b0 ++ b1 ++ b2 ++ b3

/-- The eight reserved bytes as one number, byte 8 the most significant (R61). -/
def be64 (b0 b1 b2 b3 b4 b5 b6 b7 : Byte) : Reserved64 := be32 b0 b1 b2 b3 ++ be32 b4 b5 b6 b7

/-- `BYTE1[7:4]` (R64, R68). -/
def highNibble (b : Byte) : Nibble := b.extractLsb' 4 4

/-- `BYTE1[3:0]` (R64). -/
def lowNibble (b : Byte) : Nibble := b.extractLsb' 0 4

/-- `DIST = {BYTE1[3:0], BYTE2}` (R67, R106). -/
def distField (b1 b2 : Byte) : Dist := lowNibble b1 ++ b2

/-- `BYTE1` of a back-reference: the length nibble (`0000` for the long form) above `DIST[11:8]` (R64, R65). -/
def firstByte (n : Nibble) (dist : Dist) : Byte := n ++ dist.extractLsb' 8 4

/-- `BYTE2` of a back-reference: `DIST[7:0]` (R64, R65). -/
def secondByte (dist : Dist) : Byte := dist.extractLsb' 0 8

/-- The four bytes of `decoded_length`, most significant first (R46, R61). -/
def bytes32 (d : Length32) : List Byte :=
  [d.extractLsb' 24 8, d.extractLsb' 16 8, d.extractLsb' 8 8, d.extractLsb' 0 8]

/-- The eight reserved bytes in address order (R61). -/
def bytes64 (r : Reserved64) : List Byte :=
  bytes32 (r.extractLsb' 32 32) ++ bytes32 (r.extractLsb' 0 32)

/-! ### The decoder -/

/-- Why the decoder gives no token. No token pattern is illegal (R70): a header may have the wrong magic (R83), or the
bytes given may end before the token does. -/
inductive Reject where
  /-- The first four bytes are not the magic (R83). -/
  | badMagic
  /-- The bytes end inside the token. -/
  | short
  deriving DecidableEq, Repr

/-- Format H, bytes 4 to 15, once the magic has matched (R61). -/
def decodeLength : List Byte → Except Reject (Instr × List Byte)
  | d0 :: d1 :: d2 :: d3 :: r0 :: r1 :: r2 :: r3 :: r4 :: r5 :: r6 :: r7 :: rest =>
    .ok (.hdr (be32 d0 d1 d2 d3) (be64 r0 r1 r2 r3 r4 r5 r6 r7), rest)
  | _ => .error .short

/-- Format H: the magic is compared in address order before anything else is looked at (R61, R83). -/
def decodeHeader : List Byte → Except Reject (Instr × List Byte)
  | m0 :: m1 :: m2 :: m3 :: rest =>
    if [m0, m1, m2, m3] = Config.magic then decodeLength rest else .error .badMagic
  | _ => .error .short

/-- Format C: every byte is a control byte (R62). -/
def decodeControl : List Byte → Except Reject (Instr × List Byte)
  | c :: rest => .ok (.ctrl c, rest)
  | [] => .error .short

/-- Format L: every byte is a literal (R63). -/
def decodeLiteral : List Byte → Except Reject (Instr × List Byte)
  | v :: rest => .ok (.lit v, rest)
  | [] => .error .short

/-- Formats B2 and B3, told apart by `BYTE1[7:4]` (R64 to R66). -/
def decodeBackref : List Byte → Except Reject (Instr × List Byte)
  | b1 :: b2 :: rest =>
    if highNibble b1 = 0#4 then
      match rest with
      | b3 :: rest => .ok (.refl (distField b1 b2) b3, rest)
      | [] => .error .short
    else .ok (.refs (highNibble b1) (distField b1 b2), rest)
  | _ => .error .short

/-- The decoder: positional and modal (R66). It answers the token and the bytes after it. -/
def decode : Mode → List Byte → Except Reject (Instr × List Byte)
  | .header, bs => decodeHeader bs
  | .control, bs => decodeControl bs
  | .literal, bs => decodeLiteral bs
  | .backref, bs => decodeBackref bs

/-! ### The encoder -/

/-- The bytes of a token, first byte first (R61 to R65, R72). -/
def encode : Instr → List Byte
  | .hdr dlen reserved => Config.magic ++ bytes32 dlen ++ bytes64 reserved
  | .ctrl c => [c]
  | .lit imm8 => [imm8]
  | .refs n dist => [firstByte n dist, secondByte dist]
  | .refl dist m => [firstByte 0#4 dist, secondByte dist, m]

/-- The pseudo-instruction `REF dist, len`: `REFS` up to 17, else `REFL`; lengths 0 to 2 and above 273 cannot be
expressed (R68, R72). -/
def Instr.ref (dist : Dist) (len : Nat) : Option Instr :=
  if len < Config.lenMin then none
  else if len ≤ 17 then some (.refs (BitVec.ofNat 4 (len - Config.shortBias)) dist)
  else if len ≤ Config.lenMax then some (.refl dist (BitVec.ofNat 8 (len - Config.longBias)))
  else none

/-! ### Words numbered as the opcode table numbers them -/

/-- The mode of a table row, from its bits: 128 for HDR, 8 for a one-byte token, otherwise a back-reference. The rows
CTRL and LIT have the same eight free bits and are told apart by `MASK` alone (R66); DESIGN CHOICE: eight bits are
read as CTRL, the token a run fetches first (log 17). -/
def tableMode (nbits : Nat) : Mode :=
  if nbits = 128 then .header else if nbits = 8 then .control else .backref

/-- The bytes of a table word, first byte first. The table's patterns have the first byte of a token as the most
significant one (`bit_order` of its rows; log 17). -/
def tableBytes (nbytes w : Nat) : List Byte :=
  match nbytes with
  | 0 => []
  | k + 1 => BitVec.ofNat 8 (w >>> (8 * k)) :: tableBytes k w

/-- A table word as the hardware stores it, zero bytes after it up to the longest payload token. -/
def tableStored (nbits w : Nat) : List Byte := tableBytes (nbits / 8) w ++ [0#8, 0#8, 0#8]

/-- The token the decoder reads from a table word. -/
def decodeTableWord (nbits w : Nat) : Option Instr :=
  match decode (tableMode nbits) (tableStored nbits w) with
  | .ok (i, _) => some i
  | .error _ => none

end Sys2Proof
end

