-- ==== Sys2Proof/Machine/State.lean ====
section
/-! DEFINITION. The state of the core and of its host interface (rules R10 to R31, R40 to R51), the state after
hardware reset (rules R28, R140), and the reasons a step can stop. -/

namespace Sys2Proof.Machine

/-- `STAT.PHASE` (R15). -/
inductive Phase where
  /-- 0: no run started since hardware reset. -/
  | idle
  /-- 1: Phase 1, the header validator. -/
  | header
  /-- 2: Phase 2, the expansion loop. -/
  | expand
  /-- 3: the run has ended. -/
  | done
  deriving DecidableEq, Repr

/-- `STAT.STATUS`, the outcome of a run (R16, R120). The codes 5, 6 and 7 are never written, so they have no name. -/
inductive Status where
  | ok
  | notThisFormat
  | truncated
  | invalidArgument
  | malformedStream
  deriving DecidableEq, Repr

/-- What comes next in an iteration of Phase 2 (R94). The model's own field: it is the grain of a step, which the
spec leaves OPEN (D21; DESIGN CHOICE, log 1, safe). -/
inductive Stage where
  /-- The loop guard and the mask shift (R90, R91). -/
  | loop
  /-- The control fetch (R92). -/
  | control
  /-- The token the control bit selects (R93). -/
  | token
  deriving DecidableEq, Repr

/-- The four host registers, numbered 0 to 3 (R12). Their bus addresses are the platform's (log 15). -/
inductive HostReg where
  | ctrl
  | stat
  | inSize
  | dlen
  deriving DecidableEq, Repr

/-- One move of the host (R134) or a hardware reset (R140). -/
inductive HostMove where
  /-- Hardware reset (R140). -/
  | reset
  /-- A write of `v` to a host register (R12 to R14, R17). -/
  | writeReg (r : HostReg) (v : Nat)
  /-- A read of a host register; the value goes to `readData` (R12, R15 to R18). -/
  | readReg (r : HostReg)
  /-- The host places byte `v` at address `a` of IN (R142). -/
  | writeIn (a : Nat) (v : Byte)
  /-- The host reads `OUT[i]`; the value goes to `readData` (R128). -/
  | readOut (i : Nat)
  deriving DecidableEq, Repr

/-- A memory space: the listed bytes, addresses strictly rising. -/
abbrev Memory := List Host.Cell

/-- Why the machine stops. The four signals of the spec are no faults: they are next states (R126). -/
inductive Fault where
  /-- Raised by a fetch from IN at an address the host never filled, where IN has no value (R142, U11, log 6).
  Safe: the spec gives such a run no meaning. -/
  | inUnfilled (a : Nat)
  /-- Raised by a host read of `OUT[i]` with `i >= DLEN`, an index that does not exist (R42, log 12).
  Safe: the model stops. -/
  | outIndex (i : Nat)
  deriving DecidableEq, Repr

/-- What the model gives no meaning to. -/
inductive Refusal where
  /-- The arm of `exec` for an instruction without a meaning yet. Safe. -/
  | notModelled (mnemonic : String)
  /-- Raised in Phase 1 when IN has fewer than `N` bytes: the spec gives that run no meaning (R142, U11, log 13). Safe. -/
  | inputShort
  /-- Raised when the host writes IN during a run: no meaning in the spec (R143, U11, log 11). Safe. -/
  | hostTouchedInput
  /-- Raised when the host reads OUT although it is no result (R128, R134, U5, log 12). Safe. -/
  | outNotAResult
  /-- Raised by `exec` on the ill-formed term `REFS` with a zero nibble, which no bytes encode (R64, log 20). Safe. -/
  | refsZeroNibble
  deriving DecidableEq, Repr

/-- The state of the core. Offsets, indices, lengths and sizes are natural numbers (R7). -/
structure State where
  /-- `CTRL.IN_PRESENT` (R14). -/
  inPresent : Bool
  /-- `STAT.PHASE` (R15). -/
  phase : Phase
  /-- `STAT.STATUS` (R16). -/
  status : Status
  /-- `IN_SIZE` (R17). -/
  inSize : Nat
  /-- `DLEN` (R18). -/
  dlen : Length32
  /-- `N`, sampled at START (R17, R80). -/
  n : Nat
  /-- `present`, sampled at START (R14, R80). -/
  present : Bool
  /-- `PSIZE` (R19). -/
  psize : Nat
  /-- `IOFF`, the program counter (R20). -/
  ioff : Nat
  /-- `OOFF`, the write cursor (R21). -/
  ooff : Nat
  /-- `MASK` (R22). -/
  mask : Mask
  /-- `HEADER` (R23). -/
  header : Byte
  /-- `BYTE1` (R25). -/
  byte1 : Byte
  /-- `BYTE2` (R25). -/
  byte2 : Byte
  /-- `BYTE3` (R25). -/
  byte3 : Byte
  /-- `DIST` (R26). -/
  dist : Dist
  /-- `LEN` (R26). -/
  len : Nat
  /-- `GAP` (R26). -/
  gap : Nat
  /-- `POS` (R26). -/
  pos : Nat
  /-- Space IN (R40). -/
  inMem : Memory
  /-- Space OUT (R42). -/
  outMem : Memory
  /-- Space HIST (R44). -/
  histMem : Memory
  /-- The model's own: the draw at which the unwritten slots of HIST took their free values (R28, log 27). -/
  histFill : Nat
  /-- The model's own: what comes next in an iteration (log 1). -/
  stage : Stage
  /-- The model's own: the host's moves not yet served, oldest first (log 2). -/
  hostQueue : List HostMove
  /-- The model's own: what the host's last read returned (log 8). -/
  readData : Nat
  /-- The model's own: how many free values were drawn (log 7). -/
  draws : Nat
  deriving DecidableEq, Repr

/-- The state right after hardware reset: `PHASE = IDLE`, `IN_PRESENT = 0` (R28, R140). Every other value is
unspecified by the spec; DESIGN CHOICE: zero, nothing listed (log 4, log 5, unsafe). The model's own fields start at
the loop stage, with no host move, nothing read and nothing drawn (log 1, log 2, log 7, log 8, log 27). -/
def State.reset : State where
  inPresent := false
  phase := .idle
  status := .ok
  inSize := 0
  dlen := 0#32
  n := 0
  present := false
  psize := 0
  ioff := 0
  ooff := 0
  mask := 0#16
  header := 0#8
  byte1 := 0#8
  byte2 := 0#8
  byte3 := 0#8
  dist := 0#12
  len := 0
  gap := 0
  pos := 0
  inMem := []
  outMem := []
  histMem := []
  histFill := 0
  stage := .loop
  hostQueue := []
  readData := 0
  draws := 0

end Sys2Proof.Machine
end

