-- ==== Sys2Proof/Machine/Operands.lean ====
section
/-! DEFINITION. Operand assembly and the arithmetic of the core on mathematical integers (rules R7, R67, R68, R106 to
R108, R118). -/

namespace Sys2Proof.Machine

/-- Short length: `n + 2`, 3 to 17 for `n` in 1 to 15 (R68, R107). -/
def shortLen (n : Nibble) : Nat := n.toNat + Config.shortBias

/-- Long length: `m + 18`, 18 to 273, never truncated to 8 bits (R68, R108). -/
def longLen (m : Byte) : Nat := m.toNat + Config.longBias

/-- `GAP = DIST + 1`, 1 to 4096, never truncated to 12 bits (R106). -/
def gapOf (dist : Dist) : Nat := dist.toNat + 1

/-- The distance field and length a back-reference stands for (R68, R72); `none` for the other tokens. -/
def copyOperands : Instr → Option (Dist × Nat)
  | .hdr _ _ => none
  | .ctrl _ => none
  | .lit _ => none
  | .refs n dist => some (dist, shortLen n)
  | .refl dist m => some (dist, longLen m)

/-- The slot of the circular history buffer that output index `i` is stored in: `i mod 4096`, the bit slice `[11:0]`
(R44, R118). -/
def histSlot (i : Nat) : Nat := i % Config.window

/-- The slot that lies `gap` bytes behind write pointer `w` in the circular buffer (R115). -/
def histSource (w gap : Nat) : Nat := (w + Config.window - gap) % Config.window

end Sys2Proof.Machine
end

