-- ==== Sys2Proof/Machine/Flags.lean ====
section
/-! DEFINITION. The one predicate of the machine, the control bit (rule R24), the mask shift that moves it (rule R91),
and the numeric codes of the phase and status fields (rules R15, R16). No token sets any other flag. -/

namespace Sys2Proof.Machine

/-- `CBIT`: `(HEADER & MASK[7:0]) != 0` (R24, R93). -/
def State.cbit (s : State) : Bool := (s.header &&& s.mask.extractLsb' 0 8) != 0#8

/-- `MASK >> 1`, a logical shift of 16 bits (R91). -/
def shiftMask (mask : Mask) : Mask := mask >>> 1

/-- `STAT.PHASE` as two bits (R15). -/
def Phase.code : Phase → BitVec 2
  | .idle => 0#2
  | .header => 1#2
  | .expand => 2#2
  | .done => 3#2

/-- `STAT.STATUS` as three bits (R16, R120). -/
def Status.code : Status → BitVec 3
  | .ok => 0#3
  | .notThisFormat => 1#3
  | .truncated => 2#3
  | .invalidArgument => 3#3
  | .malformedStream => 4#3

/-- A run is in progress: `PHASE` is HEADER or EXPAND (R13, R148). -/
def State.busy (s : State) : Bool :=
  match s.phase with
  | .header => true
  | .expand => true
  | .idle => false
  | .done => false

/-- The level output `done` a platform may export: `PHASE = DONE` (R131). -/
def State.doneLine (s : State) : Bool := s.phase = .done

/-- The decoded buffer is a result the host may read (R128). -/
def State.outValid (s : State) : Bool := s.phase = .done && s.status = .ok

/-- `DLEN` is meaningful to the host: the run got as far as R84 (R18, R128). -/
def State.dlenValid (s : State) : Bool := s.phase = .done && (s.status = .ok || s.status = .malformedStream)

end Sys2Proof.Machine
end

