-- ==== Sys2Proof/Machine/Ops.lean ====
section
/-! DEFINITION. The named operations over memory and registers: reads and writes of a memory space, `raise` and
`finish` (rules R96, R126), the checked payload read (rule R43), the write of one output byte (rules R44, R50), the
registers that hold no value at decode start (rule R28), entry to Phase 2 (rule R87) and the loop guard (rules R90, R91). -/

namespace Sys2Proof.Machine

/-! ### Memory spaces -/

/-- The byte at address `a` of a space; an address no cell lists reads as `Config.unlisted` says. -/
def Memory.read (sp : Config.Space) : Memory → Nat → Option Byte
  | [], _ => Config.unlisted sp
  | (b, v) :: m, a => if a = b then some v else Memory.read sp m a

/-- List `v` at `a` ahead of `m`, unless that is what an unlisted address reads as. -/
def Memory.put (sp : Config.Space) (a : Nat) (v : Byte) (m : Memory) : Memory :=
  if Config.unlisted sp = some v then m else (a, v) :: m

/-- Store `v` at address `a`, keeping the canonical form. -/
def Memory.write (sp : Config.Space) : Memory → Nat → Byte → Memory
  | [], a, v => Memory.put sp a v []
  | (b, w) :: m, a, v =>
    if a < b then Memory.put sp a v ((b, w) :: m)
    else if a = b then Memory.put sp a v m
    else (b, w) :: Memory.write sp m a v

/-- Store bytes at `a`, `a + 1`, ... -/
def Memory.place (sp : Config.Space) (m : Memory) (a : Nat) : List Byte → Memory
  | [] => m
  | v :: vs => Memory.place sp (Memory.write sp m a v) (a + 1) vs

/-- Addresses rise strictly, the first at least `lo`. -/
def Memory.risesFrom (lo : Nat) : Memory → Bool
  | [] => true
  | (a, _) :: m => decide (lo ≤ a) && Memory.risesFrom (a + 1) m

/-- No cell lists what an unlisted address reads as. -/
def Memory.minimal (sp : Config.Space) (m : Memory) : Bool :=
  m.all fun c => decide (Config.unlisted sp ≠ some c.2)

/-- The canonical form of a memory space: addresses strictly rising and no cell equal to what an unlisted address
reads as. -/
def Memory.wf (sp : Config.Space) (m : Memory) : Bool :=
  Memory.risesFrom 0 m && Memory.minimal sp m

/-- How many bytes from address `a` on are listed without a hole: from address 0, the number of bytes IN really
holds (R142). -/
def Memory.filledFrom (a : Nat) : Memory → Nat
  | [] => 0
  | (b, _) :: m => if b = a then Memory.filledFrom (a + 1) m + 1 else 0

/-- `MemRead_OUT(i, 1)` (R8, R42). Every unlisted byte of OUT reads as zero (R51), so the read always has a value. -/
def State.outByte (s : State) (i : Nat) : Byte := (Memory.read .output s.outMem i).getD 0#8

/-- `HIST[j]` (R44). A slot that nothing has written holds a free value (R28, log 27). -/
def State.histByte (s : State) (j : Nat) : Byte :=
  (Memory.read .history s.histMem j).getD (Config.freeSlot s.histFill j)

/-! ### Signals: the analogue of taking an exception -/

/-- The closed list of reasons a rule passes to `raise` (R120, R124). They are stored nowhere (R127). -/
inductive Reason where
  | absentInput
  | shortHeader
  | badMagic
  | payloadOverrun
  | negativePosition
  | outputOverrun
  deriving DecidableEq, Repr

/-- The signal of a reason (R120, R124). -/
def Reason.signal : Reason → Status
  | .absentInput => .invalidArgument
  | .shortHeader => .truncated
  | .badMagic => .notThisFormat
  | .payloadOverrun => .malformedStream
  | .negativePosition => .malformedStream
  | .outputOverrun => .malformedStream

/-- `raise S(reason)`: `STATUS <- code(S)`, `PHASE <- DONE` and nothing else (R126). There is no return (R130).
The working registers keep their values, hidden from the host (log 18). -/
def raise (r : Reason) (s : State) : State := { s with status := r.signal, phase := .done }

/-- `finish OK` (R96). -/
def finishOk (s : State) : State := { s with status := .ok, phase := .done }

/-! ### Payload and output -/

/-- The program counter moves by one byte (R20). -/
def advance (s : State) : State := { s with ioff := s.ioff + 1 }

/-- `PayRead()` without its value, which the decoded token carries: the check against `PSIZE`, then `IOFF + 1` (R43).
`.error t`: the run has ended in state `t`. -/
def payRead (s : State) : Except State State :=
  if s.psize ≤ s.ioff then .error (raise .payloadOverrun s) else .ok (advance s)

/-- `MemWrite_OUT(OOFF, 1, v)`, its mirror `HIST[OOFF mod 4096] <- v`, and `OOFF <- OOFF + 1` (R44, R50, R100). -/
def emit (v : Byte) (s : State) : State :=
  { s with
    outMem := Memory.write .output s.outMem s.ooff v
    histMem := Memory.write .history s.histMem (histSlot s.ooff) v
    ooff := s.ooff + 1 }

/-- The iteration is over: the loop guard comes next (R94; the model's own field, log 1). -/
def endIteration (s : State) : State := { s with stage := .loop }

/-- A meaning answers a next state, whether its run goes on or has ended. -/
def settle : Except State State → Host.Outcome State Fault Refusal
  | .ok t => .next t
  | .error t => .next t

/-! ### Decode start -/

/-- `HEADER` and the back-reference registers start with no value: each takes a free one (R28, R87, R141, log 7); so
does every slot of HIST (R28, log 27). -/
def noValues (s : State) : State :=
  { s with
    header := Config.freeBits 8 s.draws
    byte1 := Config.freeBits 8 (s.draws + 1)
    byte2 := Config.freeBits 8 (s.draws + 2)
    byte3 := Config.freeBits 8 (s.draws + 3)
    dist := Config.freeBits 12 (s.draws + 4)
    len := Config.freeNat (s.draws + 5)
    gap := Config.freeNat (s.draws + 6)
    pos := Config.freeNat (s.draws + 7)
    histMem := []
    histFill := s.draws + 8
    draws := s.draws + 9 }

/-- Entry to Phase 2: `IOFF`, `OOFF`, `MASK` zero, `HEADER` without a value, OUT all zero, `PHASE = EXPAND` (R87). -/
def enterExpand (s : State) : State :=
  { noValues s with ioff := 0, ooff := 0, mask := 0#16, outMem := [], phase := .expand, stage := .loop }

/-! ### The loop of Phase 2 -/

/-- The loop guard, then the mask shift and the test whether a control byte is due (R90, R91, R92). -/
def loopGuard (s : State) : State :=
  if s.dlen.toNat ≤ s.ooff then finishOk s
  else
    { s with
      mask := shiftMask s.mask
      stage := if shiftMask s.mask = 0#16 then .control else .token }

end Sys2Proof.Machine
end

