-- ==== Sys2Proof/Machine/Backref.lean ====
section
/-! DEFINITION. The back-reference copier: its parts (rules R105 to R112), the meanings of REFS and REFL (rules R116,
R117), and the two realisations of the copy that the spec allows (rules R114, R115). -/

namespace Sys2Proof.Machine

/-! ### The parts -/

/-- `BYTE1 <- b` (R105). -/
def setByte1 (b : Byte) (s : State) : State := { s with byte1 := b }

/-- `BYTE2 <- b2`, then `DIST` and `GAP` from the two bytes (R105, R106). -/
def setByte2 (b1 b2 : Byte) (s : State) : State :=
  { s with byte2 := b2, dist := distField b1 b2, gap := gapOf (distField b1 b2) }

/-- `BYTE3 <- b` (R108). -/
def setByte3 (b : Byte) (s : State) : State := { s with byte3 := b }

/-- The position check, then `POS <- OOFF - GAP` (R110). -/
def position (s : State) : Except State State :=
  if s.ooff < s.gap then .error (raise .negativePosition s) else .ok { s with pos := s.ooff - s.gap }

/-- Operand fetch, distance, position: the head the two forms share, in the order of R109 (R105, R106, R110; log 22). -/
def refHead (b1 b2 : Byte) (s : State) : Except State State := do
  let s ← payRead s
  let s ← payRead (setByte1 b1 s)
  position (setByte2 b1 b2 s)

/-- One byte of the copy: the read of `OUT[POS]` comes before the write of `OUT[OOFF]` (R112). -/
def copyByte (s : State) : State := { emit (s.outByte s.pos) s with pos := s.pos + 1 }

/-- The copy: `k` bytes in increasing order, each visible to the next (R112, R145). -/
def copyBytes : Nat → State → State
  | 0, s => s
  | k + 1, s => copyBytes k (copyByte s)

/-- `LEN <- len`, the room check, the copy (R107 or R108, R111, R112). -/
def refCopy (len : Nat) (s : State) : Except State State :=
  if s.dlen.toNat < s.ooff + len then .error (raise .outputOverrun { s with len := len })
  else .ok (endIteration (copyBytes len { s with len := len }))

/-! ### The two instructions -/

/-- The short form on its two bytes: R105, R106, R110, R107, R111, R112 in that order (R116). -/
def shortRef (n : Nibble) (dist : Dist) (s : State) : Except State State := do
  let s ← refHead (firstByte n dist) (secondByte dist) s
  refCopy (shortLen n) s

/-- The long form on its three bytes: R105, R106, R110, R108, R111, R112 in that order (R117). -/
def longRef (dist : Dist) (m : Byte) (s : State) : Except State State := do
  let s ← refHead (firstByte 0#4 dist) (secondByte dist) s
  let s ← payRead s
  refCopy (longLen m) (setByte3 m s)

/-- `REFS` (R116). A zero nibble is the long form's marker (R64, R65): no bytes encode that term, and it is refused
(log 20). -/
def execRefs (n : Nibble) (dist : Dist) (s : State) : Host.Outcome State Fault Refusal :=
  if n = 0#4 then .refused .refsZeroNibble else settle (shortRef n dist s)

/-- `REFL` (R117). -/
def execRefl (dist : Dist) (m : Byte) (s : State) : Host.Outcome State Fault Refusal :=
  settle (longRef dist m s)

/-! ### Allowed realisations of the copy -/

/-- One byte of the copy served from the circular history buffer: the slot `GAP` behind the write pointer is read
before the write pointer's slot is written (R115, R146). -/
def copyByteHist (s : State) : State :=
  { emit (s.histByte (histSource (histSlot s.ooff) s.gap)) s with pos := s.pos + 1 }

/-- The copy served from the circular history buffer (R115). -/
def copyBytesHist : Nat → State → State
  | 0, s => s
  | k + 1, s => copyBytesHist k (copyByteHist s)

/-- The bytes `OUT[i], ..., OUT[i+k-1]` as they stand in one state. -/
def outSlice (s : State) (i : Nat) : Nat → List Byte
  | 0 => []
  | k + 1 => s.outByte i :: outSlice s (i + 1) k

/-- Write bytes read earlier, moving both cursors. -/
def emitAll : List Byte → State → State
  | [], s => s
  | v :: vs, s => emitAll vs { emit v s with pos := s.pos + 1 }

/-- The copy with its non-overlapping prefix, the first `min(LEN, GAP)` bytes, read at once, and the rest in strict
byte order (R114). -/
def copyBytesBulk (len : Nat) (s : State) : State :=
  copyBytes (len - min len s.gap) (emitAll (outSlice s s.pos (min len s.gap)) s)

end Sys2Proof.Machine
end

