-- ==== Sys2Proof/Machine/Control.lean ====
section
/-! DEFINITION. The meaning of CTRL (rule R92). -/

namespace Sys2Proof.Machine

/-- `HEADER <- c`, `MASK <- 0x0080`; the token its bit 7 governs comes next (R92, R94). -/
def loadWindow (c : Byte) (s : State) : State :=
  { s with header := c, mask := Config.maskReload, stage := .token }

/-- `CTRL`: `PayRead()`, which may raise PayloadOverrun, then the control window is loaded (R92). -/
def execCtrl (c : Byte) (s : State) : Host.Outcome State Fault Refusal :=
  settle ((payRead s).map (loadWindow c))

end Sys2Proof.Machine
end

