-- ==== Sys2Proof/Machine/Header.lean ====
section
/-! DEFINITION. The meaning of HDR (rules R83 to R88). The magic was compared by the decoder, the guards R81 and R82
come before it (Machine/Fetch.lean). -/

namespace Sys2Proof.Machine

/-- `HDR`: `DLEN <- decoded_length` (R84), the reserved bytes do nothing (R85), `PSIZE <- N - 16` (R86), entry to
Phase 2 (R87). `N >= 16` holds after guard R82; below it the difference is 0 and Phase 2 is entered all the same, as
R86 says of an underflow (DEDUCED, log 23, unreachable). -/
def execHdr (dlen : Length32) (_reserved : Reserved64) (s : State) : Host.Outcome State Fault Refusal :=
  .next (enterExpand { s with dlen := dlen, psize := s.n - Config.hdrSize })

end Sys2Proof.Machine
end

