-- ==== Sys2Proof/Machine/Literal.lean ====
section
/-! DEFINITION. The meaning of LIT (rules R100, R101). -/

namespace Sys2Proof.Machine

/-- `LIT`: if the output is complete the run ends OK with no read and no write (R101, tested as "has already reached",
`OOFF >= DLEN`, log 19); otherwise `PayRead()`, which may raise PayloadOverrun, and the byte is written to `OUT[OOFF]`
and to HIST (R100). -/
def execLit (imm8 : Byte) (s : State) : Host.Outcome State Fault Refusal :=
  if s.dlen.toNat ≤ s.ooff then .next (finishOk s)
  else settle ((payRead s).map fun s => endIteration (emit imm8 s))

end Sys2Proof.Machine
end

