-- ==== Sys2Proof/Machine/Dispatch.lean ====
section
/-! DEFINITION. One arm per token, each one direct call of its meaning. -/

namespace Sys2Proof.Machine

def exec (i : Instr) (s : State) : Host.Outcome State Fault Refusal :=
  match i with
  | .hdr dlen reserved => Sys2Proof.Machine.execHdr dlen reserved s
  | .ctrl c => Sys2Proof.Machine.execCtrl c s
  | .lit imm8 => Sys2Proof.Machine.execLit imm8 s
  | .refs n dist => Sys2Proof.Machine.execRefs n dist s
  | .refl dist m => Sys2Proof.Machine.execRefl dist m s

end Sys2Proof.Machine
end

