-- ==== Sys2Proof/Machine/Fetch.lean ====
section
/-! DEFINITION. What the core does next: the guards of the header validator (rules R81, R82), the bytes of the next
token (rules R41, R43, R66), the dispatch on the control bit (rule R93) and the loop guard (rule R90). -/

namespace Sys2Proof.Machine

/-- What the core's next move is. -/
inductive Fetched where
  /-- Run this token. -/
  | run (i : Instr)
  /-- No token: the next state itself (idle, a guard that raised, the loop guard). -/
  | goto (t : State)
  | fault (r : Fault)
  | refused (r : Refusal)
  deriving Repr

/-- Payload byte `IOFF + k`, at IN address `16 + IOFF + k` (R43). Past `PSIZE` the window is padded with zero: the
token's meaning raises PayloadOverrun before it uses that byte (DESIGN CHOICE, log 16, safe). -/
def State.peek (s : State) (k : Nat) : Option Byte :=
  if s.ioff + k < s.psize then Memory.read .input s.inMem (Config.hdrSize + s.ioff + k) else some 0#8

/-- The bytes of a window up to the first that has no value. -/
def takeListed : List (Option Byte) → List Byte
  | some b :: bs => b :: takeListed bs
  | none :: _ => []
  | [] => []

/-- The window a token is decoded from: the header record, one byte, or up to three (R66). -/
def State.window (s : State) : Mode → List Byte
  | .header => takeListed ((List.range Config.hdrSize).map (Memory.read .input s.inMem))
  | .control => takeListed [s.peek 0]
  | .literal => takeListed [s.peek 0]
  | .backref => takeListed [s.peek 0, s.peek 1, s.peek 2]

/-- The IN address a window begins at (R49). -/
def State.windowBase (s : State) : Mode → Nat
  | .header => 0
  | .control => Config.hdrSize + s.ioff
  | .literal => Config.hdrSize + s.ioff
  | .backref => Config.hdrSize + s.ioff

/-- Decode the next token: a wrong magic raises NotThisFormat (R83); a byte of IN that the host never placed stops the
model (log 6). -/
def fetchToken (m : Mode) (s : State) : Fetched :=
  match decode m (s.window m) with
  | .ok (i, _) => .run i
  | .error .badMagic => .goto (raise .badMagic s)
  | .error .short => .fault (.inUnfilled (s.windowBase m + (s.window m).length))

/-- Phase 1: guard 1 (R81), guard 2 (R82), then the launch state of R142 (log 13), then HDR (R83 to R88). -/
def validateHeader (s : State) : Fetched :=
  if !s.present then .goto (raise .absentInput s)
  else if s.n < Config.hdrSize then .goto (raise .shortHeader s)
  else if Memory.filledFrom 0 s.inMem < s.n then .refused .inputShort
  else fetchToken .header s

/-- The mode the control bit selects (R66, R93). -/
def State.tokenMode (s : State) : Mode := if s.cbit then .literal else .backref

/-- The core's next move: nothing in IDLE and DONE (R126, R130, R140), Phase 1 in HEADER, one part of an iteration in
EXPAND (R94). -/
def coreMove (s : State) : Fetched :=
  match s.phase with
  | .idle => .goto s
  | .done => .goto s
  | .header => validateHeader s
  | .expand =>
    match s.stage with
    | .loop => .goto (loopGuard s)
    | .control => fetchToken .control s
    | .token => fetchToken s.tokenMode s

/-- `s` in the phase and stage that fetch a token of mode `m`: Phase 1 with a present input of 16 bytes, or Phase 2
at the control fetch or at the token, the control bit forced by `HEADER` (R66). -/
def readyFor (m : Mode) (s : State) : State :=
  match m with
  | .header => { s with hostQueue := [], phase := .header, present := true, n := Config.hdrSize }
  | .control => { s with hostQueue := [], phase := .expand, stage := .control, psize := max s.psize (s.ioff + 3) }
  | .literal =>
    { s with
      hostQueue := [], phase := .expand, stage := .token, header := 0xFF#8, mask := Config.maskReload,
      psize := max s.psize (s.ioff + 3) }
  | .backref =>
    { s with
      hostQueue := [], phase := .expand, stage := .token, header := 0x00#8,
      psize := max s.psize (s.ioff + 3) }

/-- `s` with the token of a table word stored where the core fetches it next (log 17). -/
def placeTableWord (s : State) (nbits w : Nat) : State :=
  let t := readyFor (tableMode nbits) s
  { t with inMem := Memory.place .input t.inMem (t.windowBase (tableMode nbits)) (tableStored nbits w) }

end Sys2Proof.Machine
end

