-- ==== Sys2Proof/Machine/HostPort.lean ====
section
/-! DEFINITION. What the host can do to the machine: hardware reset (rule R140), reads and writes of the four host
registers (rules R12 to R18), placing bytes of IN and taking bytes of OUT (rules R128, R134, R142 to R144). -/

namespace Sys2Proof.Machine

/-- Hardware reset: every register and OUT as in `State.reset`; HIST without values; IN stays the host's (R28, R140).
The model's own queue and read value are kept (log 26). -/
def hardReset (s : State) : State :=
  { State.reset with
    inMem := s.inMem, hostQueue := s.hostQueue, readData := s.readData,
    histFill := s.draws + 1, draws := s.draws + 1 }

/-- START accepted: `PHASE <- HEADER`, `N` and `present` sampled (R80). `old` is `IN_PRESENT` before the write that
carried START; if that very write changed the bit, which of the two is sampled is not said: a free value (log 9).
DESIGN CHOICE: every other register, OUT and HIST keep what the last run or reset left in them until R84, R86, R87 or the
end of the run writes them, where R28 calls them unspecified or without a value (log 28, unsafe). -/
def start (old : Bool) (s : State) : State :=
  { s with
    phase := .header
    n := s.inSize
    present := if s.inPresent = old then old else Config.freeBits 1 s.draws = 1#1
    draws := if s.inPresent = old then s.draws else s.draws + 1 }

/-- A write of `CTRL`: bit 1 is `IN_PRESENT`, a 1 in bit 0 is START, ignored while a run is in progress (R12 to R14,
R148). Other bits ignore writes. -/
def writeCtrl (v : Nat) (s : State) : State :=
  if v.testBit 0 && !s.busy then start s.inPresent { s with inPresent := v.testBit 1 }
  else { s with inPresent := v.testBit 1 }

/-- A write of a host register. `IN_SIZE` keeps its low `AW` bits (R4, R12, R17, log 14); `STAT` and `DLEN` are
read-only (R12). A write during a run is stored and does not reach the run (R143, log 10). -/
def writeReg (r : HostReg) (v : Nat) (s : State) : State :=
  match r with
  | .ctrl => writeCtrl v s
  | .stat => s
  | .inSize => { s with inSize := v % 2 ^ Config.aw }
  | .dlen => s

/-- What a read returned. -/
def returned (v : Nat) (s : State) : State := { s with readData := v }

/-- A read whose value is unspecified has drawn a free one. -/
def drawn (s : State) : State := { s with draws := s.draws + 1 }

/-- The word `STAT`: `STATUS` in bits 4:2, `PHASE` in bits 1:0 (R12). -/
def statWord (status : BitVec 3) (phase : Phase) : BitVec 5 := status ++ phase.code

/-- A read of a host register: START reads 0 (R13); `STATUS` is a free value while `PHASE` is not DONE (R16, U3);
`DLEN` is a free value where R18 and R128 call it not valid (U4; log 8). Bits not listed read as zero (R12). -/
def readReg (r : HostReg) (s : State) : State :=
  match r with
  | .ctrl => returned (2 * s.inPresent.toNat) s
  | .stat =>
    if s.phase = .done then returned (statWord s.status.code s.phase).toNat s
    else returned (statWord (Config.freeBits 3 s.draws) s.phase).toNat (drawn s)
  | .inSize => returned s.inSize s
  | .dlen =>
    if s.dlenValid then returned s.dlen.toNat s
    else returned (Config.freeBits 32 s.draws).toNat (drawn s)

/-- The host places a byte of IN, which it may do only outside a run (R134, R142, R143, log 11, log 25). -/
def writeIn (a : Nat) (v : Byte) (s : State) : Host.Outcome State Fault Refusal :=
  if s.busy then .refused .hostTouchedInput
  else .next { s with inMem := Memory.write .input s.inMem a v }

/-- The host reads `OUT[i]`, a result only after `STATUS = OK` and only below `DLEN` (R42, R128, R134, log 12). -/
def readOut (i : Nat) (s : State) : Host.Outcome State Fault Refusal :=
  if !s.outValid then .refused .outNotAResult
  else if s.dlen.toNat ≤ i then .fault (.outIndex i)
  else .next (returned (s.outByte i).toNat s)

/-- One move of the host (R134). -/
def hostMove : HostMove → State → Host.Outcome State Fault Refusal
  | .reset, s => .next (hardReset s)
  | .writeReg r v, s => .next (writeReg r v s)
  | .readReg r, s => .next (readReg r s)
  | .writeIn a v, s => writeIn a v s
  | .readOut i, s => readOut i s

end Sys2Proof.Machine
end

