-- ==== Sys2Proof/Machine/Step.lean ====
section
/-! DEFINITION. One step of the machine: the host's oldest waiting move, or else the core's next move. -/

namespace Sys2Proof.Machine

/-- The core's move: run the token it fetched, or go where the fetch says. -/
def coreStep (s : State) : Host.Outcome State Fault Refusal :=
  match coreMove s with
  | .run i => exec i s
  | .goto t => .next t
  | .fault r => .fault r
  | .refused r => .refused r

/-- One step (log 1, log 2). -/
def step (s : State) : Host.Outcome State Fault Refusal :=
  match s.hostQueue with
  | m :: rest => hostMove m { s with hostQueue := rest }
  | [] => coreStep s

/-- `s` with a table word's token stored where `step` fetches its next token (log 17). -/
def State.withFetchWord (s : State) (nbits w : Nat) : State := placeTableWord s nbits w

end Sys2Proof.Machine
end

