-- ==== Sys2Proof/Safety.lean ====
section
/-! DEFINITION. What counts as a safe state and a safe run, in the terms the statements use: the invariants of the
machine (rules R19 to R22, R41, R45, R50), the parts of a state a frame speaks of, and what a run depends on (R31). -/

namespace Sys2Proof.Machine

/-! ### Invariants -/

/-- The three memory spaces keep their canonical form. -/
def State.memoryCanonical (s : State) : Prop :=
  Memory.wf .input s.inMem = true ∧ Memory.wf .output s.outMem = true ∧ Memory.wf .history s.histMem = true

/-- The nine values `MASK` ever holds (R22). -/
def maskValues : List Mask :=
  [0x0000#16, 0x0080#16, 0x0040#16, 0x0020#16, 0x0010#16, 0x0008#16, 0x0004#16, 0x0002#16, 0x0001#16]

/-- `MASK` is zero or one-hot in bits 7:0; it is zero at a control fetch and one-hot when a token is due (R22, R93). -/
def State.maskLegal (s : State) : Prop :=
  s.mask ∈ maskValues ∧ (s.stage = .control → s.mask = 0#16) ∧ (s.stage = .token → s.mask ≠ 0#16)

/-- The cursors stay within their bounds: `IOFF <= PSIZE`, `OOFF <= DLEN` (R20, R21). -/
def State.cursorsInRange (s : State) : Prop := s.ioff ≤ s.psize ∧ s.ooff ≤ s.dlen.toNat

/-- OUT lists nothing at or past the write cursor (R21, R50). -/
def State.outBelowCursor (s : State) : Prop := ∀ c ∈ s.outMem, c.1 < s.ooff

/-- HIST has 4096 slots (R44). -/
def State.histInWindow (s : State) : Prop := ∀ c ∈ s.histMem, c.1 < Config.window

/-- The HIST invariant: `HIST[p mod 4096] = OUT[p]` for the last 4096 bytes produced (R45). -/
def State.historyView (s : State) : Prop :=
  ∀ p, p < s.ooff → s.ooff ≤ p + Config.window → s.histByte (histSlot p) = s.outByte p

/-- What a run in Phase 2 was launched with: a present input of at least 16 bytes that IN really holds, and
`PSIZE = N - 16` (R19, R40, R82, R142). -/
def State.launched (s : State) : Prop :=
  s.phase = .expand →
    s.present = true ∧ s.n = s.psize + Config.hdrSize ∧ s.n ≤ Memory.filledFrom 0 s.inMem

/-- `IN_SIZE` is a number of `AW` bits (R4, R12, R17). -/
def State.inSizeFits (s : State) : Prop := s.inSize < 2 ^ Config.aw

/-- The invariant of the machine. -/
def State.Inv (s : State) : Prop :=
  s.memoryCanonical ∧ s.maskLegal ∧ s.cursorsInRange ∧ s.outBelowCursor ∧ s.histInWindow ∧ s.historyView ∧
    s.launched ∧ s.inSizeFits

/-- A step is safe when it answers a next state. -/
def Answers (o : Host.Outcome State Fault Refusal) : Prop := ∃ t, o = .next t

/-! ### Parts of a state -/

/-- The host's side is unchanged: its registers, what START sampled, IN, and the model's own queue, read value and
draw counter. -/
def SameHostSide (s t : State) : Prop :=
  t.inPresent = s.inPresent ∧ t.inSize = s.inSize ∧ t.n = s.n ∧ t.present = s.present ∧ t.inMem = s.inMem ∧
    t.hostQueue = s.hostQueue ∧ t.readData = s.readData ∧ t.draws = s.draws

/-- The bounds a run is given by its header are unchanged: `DLEN` and `PSIZE`. -/
def SameBounds (s t : State) : Prop := t.dlen = s.dlen ∧ t.psize = s.psize

/-- The control window is unchanged: `MASK` and `HEADER`. -/
def SameWindow (s t : State) : Prop := t.mask = s.mask ∧ t.header = s.header

/-- The back-reference registers are unchanged. -/
def SameRefRegs (s t : State) : Prop :=
  t.byte1 = s.byte1 ∧ t.byte2 = s.byte2 ∧ t.byte3 = s.byte3 ∧ t.dist = s.dist ∧ t.len = s.len ∧ t.gap = s.gap ∧
    t.pos = s.pos

/-- Every byte of OUT and every slot of HIST reads as before. -/
def SameOutput (s t : State) : Prop :=
  t.ooff = s.ooff ∧ (∀ a, t.outByte a = s.outByte a) ∧ ∀ j, t.histByte j = s.histByte j

/-- The run has ended with this status (R96, R126). -/
def EndedWith (r : Status) (t : State) : Prop := t.phase = .done ∧ t.status = r

/-- What the host sees of a state by the rules of R128: the phase, and after DONE the status, `DLEN` where it is valid
and OUT where it is a result. -/
def SameResult (s t : State) : Prop :=
  t.phase = s.phase ∧
    (s.phase = .done →
      t.status = s.status ∧ (s.dlenValid = true → t.dlen = s.dlen) ∧
        (s.outValid = true → ∀ i, i < s.dlen.toNat → t.outByte i = s.outByte i))

end Sys2Proof.Machine
end

