-- ==== Sys2Proof/Certificates/Slice0/Obligations.lean ====
section
/-! DEFINITION. The statements about the machine, each from the rules of spec/ its docstring names. -/

open Sys2Proof Sys2Proof.Machine

/-! ### Encoding -/

/-- R61 to R66: decoding the bytes of a well-formed token in its mode gives the token and leaves the bytes after it. -/
def Obligations.DecodeOfEncodeIsTheToken : Prop :=
  ∀ (i : Instr) (rest : List Byte), i.wf = true → decode i.mode (encode i ++ rest) = .ok (i, rest)

/-- R60 to R66: bytes have one reading: what the decoder accepts is exactly the encoding of the token it answers,
well-formed, of the mode it was asked for, followed by the bytes it leaves. -/
def Obligations.DecodedBytesAreTheEncoding : Prop :=
  ∀ (m : Mode) (bs : List Byte) (i : Instr) (rest : List Byte),
    decode m bs = .ok (i, rest) → i.wf = true ∧ i.mode = m ∧ bs = encode i ++ rest

/-- R70: in the payload no pattern is illegal: any three bytes begin with a token of whichever mode is asked for. -/
def Obligations.EveryPayloadPatternDecodes : Prop :=
  ∀ (m : Mode) (b1 b2 b3 : Byte) (rest : List Byte), m ≠ .header →
    ∃ i left, decode m (b1 :: b2 :: b3 :: rest) = .ok (i, left)

/-- R68: `LEN` is `n + 2` when the nibble `n` of the first byte is not 0, else the third byte plus 18; every distance
with a length of 3 to 273 has exactly one encoding, short up to 17 and long from 18; lengths 0 to 2 and above 273 have
none. -/
def Obligations.EachCopyHasOneEncoding : Prop :=
  (∀ (b1 b2 b3 : Byte) (rest : List Byte), ∃ i left dist,
    decode .backref (b1 :: b2 :: b3 :: rest) = .ok (i, left) ∧
    copyOperands i = some (dist, if b1.toNat / 16 = 0 then b3.toNat + 18 else b1.toNat / 16 + 2)) ∧
  ∀ (dist : Dist) (len : Nat),
    (3 ≤ len ∧ len ≤ 273 → ∃ i, Instr.ref dist len = some i ∧ i.wf = true ∧ copyOperands i = some (dist, len)) ∧
    (∀ i j, i.wf = true → j.wf = true → copyOperands i = some (dist, len) → copyOperands j = some (dist, len) → i = j) ∧
    (∀ i, i.wf = true → copyOperands i = some (dist, len) → 3 ≤ len ∧ len ≤ 273 ∧ (i.size = 2 ↔ len ≤ 17))

/-- R67: `DIST = ((BYTE1 & 0x0F) << 8) | BYTE2`, 0 to 4095, the same assembly in both back-reference formats; the
source lies `DIST + 1` bytes back, 1 to 4096. -/
def Obligations.DistanceIsAssembledFromBothBytes : Prop :=
  ∀ (b1 b2 b3 : Byte) (rest : List Byte),
    (distField b1 b2).toNat = ((b1.toNat &&& 0x0F) <<< 8) ||| b2.toNat ∧ (distField b1 b2).toNat ≤ 4095 ∧
    gapOf (distField b1 b2) = (distField b1 b2).toNat + 1 ∧ 1 ≤ gapOf (distField b1 b2) ∧
    gapOf (distField b1 b2) ≤ 4096 ∧
    ∃ i left dist len, decode .backref (b1 :: b2 :: b3 :: rest) = .ok (i, left) ∧
      copyOperands i = some (dist, len) ∧ dist = distField b1 b2

/-- R61 to R65: some words written out from the spec's formats and listings decode to the tokens they stand for. -/
def Obligations.ListedWordsDecode : Prop :=
  decode .control [0xEB#8, 0x61#8] = .ok (.ctrl 0xEB#8, [0x61#8]) ∧
  decode .literal [0x61#8, 0x62#8] = .ok (.lit 0x61#8, [0x62#8]) ∧
  decode .backref [0x10#8, 0x02#8, 0x64#8] = .ok (.refs 1#4 2#12, [0x64#8]) ∧
  decode .backref [0x00#8, 0x01#8, 0x00#8, 0x67#8] = .ok (.refl 1#12 0#8, [0x67#8]) ∧
  decodeTableWord 128 0x59617A30000000200000000000000000 = some (.hdr 32#32 0#64) ∧
  decodeTableWord 16 0x11FF = some (.refs 1#4 0x1FF#12) ∧
  decodeTableWord 24 0x0FFFFF = some (.refl 0xFFF#12 0xFF#8)

/-! ### Reset and the host's side -/

/-- R28, R140: hardware reset gives `PHASE = IDLE` and `IN_PRESENT = 0`, in the reset state and from any state, and
IN stays the host's. (That the host's moves still waiting are kept is the model's choice, log 26.) -/
def Obligations.ResetGivesIdleWithoutInput : Prop :=
  State.reset.phase = .idle ∧ State.reset.inPresent = false ∧
  ∀ (s : State) (rest : List HostMove), s.hostQueue = .reset :: rest →
    ∃ t, step s = .next t ∧ t.phase = .idle ∧ t.inPresent = false ∧ t.inMem = s.inMem ∧ t.hostQueue = rest

/-- R126, R130, R140: in IDLE and in DONE the core makes no step of its own: nothing changes until the host moves. (That a step then answers the same state is the model's
reading, log 3.) -/
def Obligations.CoreRestsInIdleAndDone : Prop :=
  ∀ s : State, s.hostQueue = [] → s.phase = .idle ∨ s.phase = .done → step s = .next s

/-- R13, R14, R80: a write of `CTRL` with bit 0 set in IDLE or DONE begins a run: `PHASE = HEADER`, `N` sampled from
`IN_SIZE`, `present` from `IN_PRESENT`, when the write leaves that bit as it is. A write that changes it stores the
new bit; which one is sampled is the model's free value, so nothing is said of it and of the draw counter (log 9).
Everything else stays: for the registers R28 calls unspecified then, that is the model's choice (log 28). -/
def Obligations.StartBeginsARun : Prop :=
  ∀ (s : State) (v : Nat) (rest : List HostMove), s.hostQueue = .writeReg .ctrl v :: rest →
    s.phase = .idle ∨ s.phase = .done → v.testBit 0 = true →
    (v.testBit 1 = s.inPresent →
      step s = .next { s with hostQueue := rest, phase := .header, n := s.inSize, present := s.inPresent }) ∧
    ∃ t, step s = .next t ∧
      t = { s with
        hostQueue := rest, inPresent := v.testBit 1, phase := .header, n := s.inSize, present := t.present,
        draws := t.draws }

/-- R148: START while `PHASE` is HEADER or EXPAND is ignored: the run in progress is unchanged and no second run is
queued; only `IN_PRESENT`, the other bit of the word written, is stored (that it is stored during a run is the model's
reading of R143, log 10). -/
def Obligations.StartWhileBusyIsIgnored : Prop :=
  ∀ (s : State) (v : Nat) (rest : List HostMove), s.hostQueue = .writeReg .ctrl v :: rest →
    s.phase = .header ∨ s.phase = .expand →
    step s = .next { s with hostQueue := rest, inPresent := v.testBit 1 }

/-- R12, R13: a write of 0 to START only stores `IN_PRESENT`; `STAT` and `DLEN` are read-only. `IN_SIZE` takes the
low `AW` bits of the word, so every number of `AW` bits whole (that the bits above are dropped is the model's choice,
log 14). (That a write is stored during a run too is the model's reading of R143, log 10.) -/
def Obligations.RegisterWritesReachOnlyTheirFields : Prop :=
  ∀ (s : State) (r : HostReg) (v : Nat) (rest : List HostMove), s.hostQueue = .writeReg r v :: rest →
    (r = .ctrl → v.testBit 0 = false → step s = .next { s with hostQueue := rest, inPresent := v.testBit 1 }) ∧
    (r = .stat ∨ r = .dlen → step s = .next { s with hostQueue := rest }) ∧
    (r = .inSize → step s = .next { s with hostQueue := rest, inSize := v % 2 ^ Config.aw }) ∧
    (r = .inSize → v < 2 ^ Config.aw → step s = .next { s with hostQueue := rest, inSize := v })

/-- R12, R13, R15, R16, R18, R128: what a read of each host register returns: START reads 0; `STAT` after DONE holds
the status code above the phase code; `DLEN` where it is valid. Such a read changes nothing but the value returned. A
read of `DLEN` where it is not valid returns some 32-bit value, the model's free one (log 8; U4), and changes nothing
else but the counter of free values. -/
def Obligations.RegisterReadsReturnTheFields : Prop :=
  ∀ (s : State) (r : HostReg) (rest : List HostMove), s.hostQueue = .readReg r :: rest →
    (r = .ctrl → step s = .next { s with hostQueue := rest, readData := if s.inPresent then 2 else 0 }) ∧
    (r = .stat → s.phase = .done →
      step s = .next { s with hostQueue := rest, readData := 4 * s.status.code.toNat + 3 }) ∧
    (r = .inSize → step s = .next { s with hostQueue := rest, readData := s.inSize }) ∧
    (r = .dlen → s.phase = .done → s.status = .ok ∨ s.status = .malformedStream →
      step s = .next { s with hostQueue := rest, readData := s.dlen.toNat }) ∧
    (r = .dlen → ¬(s.phase = .done ∧ (s.status = .ok ∨ s.status = .malformedStream)) →
      ∃ t, step s = .next t ∧ t.readData < 2 ^ 32 ∧
        t = { s with hostQueue := rest, readData := t.readData, draws := t.draws })

/-- R15: while `PHASE` is not DONE a read of `STAT` still returns the phase in its two low bits; the status bits above
are a free value (log 8), whatever it is. -/
def Obligations.PhaseIsReadableAtAnyTime : Prop :=
  ∀ (s : State) (rest : List HostMove), s.hostQueue = .readReg .stat :: rest →
    ∃ t, step s = .next t ∧ t.readData % 4 = s.phase.code.toNat ∧ t.readData < 32 ∧ t.phase = s.phase ∧
      t.status = s.status ∧ SameBounds s t ∧ SameWindow s t ∧ SameRefRegs s t ∧ SameOutput s t ∧ t.inMem = s.inMem

/-- R42, R128, R134: the host takes `OUT[i]` for `i < DLEN` after DONE with status OK; OUT is read at no other time and
at no other index: that the model stops there, and how, is its choice (log 12). -/
def Obligations.OutIsReadOnlyAsAResult : Prop :=
  ∀ (s : State) (i : Nat) (rest : List HostMove), s.hostQueue = .readOut i :: rest →
    (s.phase = .done → s.status = .ok → i < s.dlen.toNat →
      step s = .next { s with hostQueue := rest, readData := (s.outByte i).toNat }) ∧
    (s.phase = .done → s.status = .ok → s.dlen.toNat ≤ i → step s = .fault (.outIndex i)) ∧
    (s.phase ≠ .done ∨ s.status ≠ .ok → step s = .refused .outNotAResult)

/-- R142, R143: outside a run the host places bytes of IN, and only that byte changes; during a run that move has no
meaning in the spec, and the model's choice is to refuse it (log 11). -/
def Obligations.HostPlacesInputOutsideARun : Prop :=
  ∀ (s : State) (a : Nat) (v : Byte) (rest : List HostMove), s.hostQueue = .writeIn a v :: rest → s.memoryCanonical →
    (s.phase = .idle ∨ s.phase = .done →
      ∃ t, step s = .next t ∧ t = { s with hostQueue := rest, inMem := t.inMem } ∧
        Memory.read .input t.inMem a = some v ∧
        ∀ b, b ≠ a → Memory.read .input t.inMem b = Memory.read .input s.inMem b) ∧
    (s.phase = .header ∨ s.phase = .expand → step s = .refused .hostTouchedInput)

/-- R144: `PHASE` stays DONE, and `STATUS`, `DLEN` and OUT stay as they are, until the next START or reset, whatever
else the host does. -/
def Obligations.DoneStaysUntilStartOrReset : Prop :=
  ∀ s t : State, s.phase = .done → step s = .next t →
    (∃ rest, s.hostQueue = .reset :: rest) ∨
    (∃ v rest, s.hostQueue = .writeReg .ctrl v :: rest ∧ v.testBit 0 = true) ∨
    (t.phase = .done ∧ t.status = s.status ∧ t.dlen = s.dlen ∧ t.outMem = s.outMem)

/-! ### The header validator -/

/-- R81: an absent input ends the run with InvalidArgument, whatever `N` and IN are, and nothing else changes. -/
def Obligations.AbsentInputIsInvalidArgument : Prop :=
  ∀ s : State, s.hostQueue = [] → s.phase = .header → s.present = false →
    step s = .next { s with status := .invalidArgument, phase := .done }

/-- R82: a present input of fewer than 16 bytes ends the run with Truncated, whatever its bytes are, and nothing else
changes. -/
def Obligations.ShortInputIsTruncated : Prop :=
  ∀ s : State, s.hostQueue = [] → s.phase = .header → s.present = true → s.n < 16 →
    step s = .next { s with status := .truncated, phase := .done }

/-- R83: with an input of at least 16 bytes that IN really holds, a first four bytes other than `MAGIC` end the run
with NotThisFormat; `DLEN` and everything else stay. (`Config.magic` holds the characters `Y a z 0`; their codes are the
ASCII standard's, log 21.) -/
def Obligations.WrongMagicIsNotThisFormat : Prop :=
  ∀ s : State, s.hostQueue = [] → s.phase = .header → s.present = true → 16 ≤ s.n →
    s.n ≤ Memory.filledFrom 0 s.inMem →
    (∃ k, k < 4 ∧ Memory.read .input s.inMem k ≠ Config.magic[k]?) →
    step s = .next { s with status := .notThisFormat, phase := .done }

/-- R84, R86, R87, R88: with the right magic the step reads `DLEN` big-endian from bytes 4 to 7, sets `PSIZE = N - 16`
and enters Phase 2 with both cursors and `MASK` zero and OUT all zero. -/
def Obligations.GoodHeaderEntersPhaseTwo : Prop :=
  ∀ (s : State) (d0 d1 d2 d3 : Byte), s.hostQueue = [] → s.phase = .header → s.present = true → 16 ≤ s.n →
    s.n ≤ Memory.filledFrom 0 s.inMem →
    (∀ k, k < 4 → Memory.read .input s.inMem k = Config.magic[k]?) →
    Memory.read .input s.inMem 4 = some d0 → Memory.read .input s.inMem 5 = some d1 →
    Memory.read .input s.inMem 6 = some d2 → Memory.read .input s.inMem 7 = some d3 →
    ∃ t, step s = .next t ∧
      t.dlen.toNat = d0.toNat * 2 ^ 24 + d1.toNat * 2 ^ 16 + d2.toNat * 2 ^ 8 + d3.toNat ∧
      t.psize = s.n - 16 ∧ t.ioff = 0 ∧ t.ooff = 0 ∧ t.mask = 0#16 ∧ t.phase = .expand ∧
      (∀ i, t.outByte i = 0#8) ∧ t.inMem = s.inMem

/-- R69, R85: bytes 8 to 15 of IN are ignored: two inputs that agree everywhere else give the same header step. -/
def Obligations.ReservedHeaderBytesAreIgnored : Prop :=
  ∀ (s : State) (m : Memory), s.hostQueue = [] → s.phase = .header →
    s.n ≤ Memory.filledFrom 0 s.inMem → s.n ≤ Memory.filledFrom 0 m →
    (∀ a, a < 8 ∨ 16 ≤ a → Memory.read .input m a = Memory.read .input s.inMem a) →
    ∃ t, step s = .next t ∧ step { s with inMem := m } = .next { t with inMem := m }

/-- R84 to R88: HDR completes: `DLEN` and `PSIZE` set, both cursors and `MASK` zero, OUT all zero, `PHASE = EXPAND`.
`HEADER` and the back-reference registers hold no value then: nothing is said of them. -/
def Obligations.HdrSetsUpTheRun : Prop :=
  ∀ (dlen : Length32) (reserved : Reserved64) (s : State), 16 ≤ s.n →
    ∃ t, exec (.hdr dlen reserved) s = .next t ∧
      t.dlen = dlen ∧ t.psize = s.n - 16 ∧ t.ioff = 0 ∧ t.ooff = 0 ∧ t.mask = 0#16 ∧ t.phase = .expand ∧
      t.stage = .loop ∧ (∀ i, t.outByte i = 0#8)

/-- Frame of HDR (R84 to R88): the host's registers, what START sampled, `STATUS` and IN stay. Nothing is said of HIST and
of the registers that hold no value at decode start (R28). -/
def Obligations.HdrLeavesTheRestAlone : Prop :=
  ∀ (dlen : Length32) (reserved : Reserved64) (s t : State), exec (.hdr dlen reserved) s = .next t →
    t.inPresent = s.inPresent ∧ t.inSize = s.inSize ∧ t.n = s.n ∧ t.present = s.present ∧ t.status = s.status ∧
    t.hostQueue = s.hostQueue ∧ t.readData = s.readData ∧
    ∀ a, Memory.read .input t.inMem a = Memory.read .input s.inMem a

/-! ### The control parser -/

/-- R90, R96: when `OOFF >= DLEN` the loop ends with OK and nothing else changes; no payload byte is read. -/
def Obligations.LoopEndsWhenOutputIsComplete : Prop :=
  ∀ s : State, s.hostQueue = [] → s.phase = .expand → s.stage = .loop → s.dlen.toNat ≤ s.ooff →
    step s = .next { s with status := .ok, phase := .done }

/-- R91, R92: while output is owed, the step shifts `MASK` right by one as an unsigned 16-bit value; a control byte is
due exactly when the shifted value is 0. -/
def Obligations.LoopShiftsTheMask : Prop :=
  ∀ s : State, s.hostQueue = [] → s.phase = .expand → s.stage = .loop → s.ooff < s.dlen.toNat →
    ∃ t, step s = .next t ∧ t.mask.toNat = s.mask.toNat / 2 ∧
      t = { s with mask := t.mask, stage := if t.mask = 0#16 then .control else .token }

/-- R91, R92: the two steps that begin an iteration when a control byte is due: `MASK` shifts to 0, the payload byte at
`IOFF` goes to `HEADER`, `MASK` is reloaded with 0x80; with no payload byte left the run ends with MalformedStream. -/
def Obligations.ControlFetchReloadsTheWindow : Prop :=
  ∀ (s : State) (c : Byte), s.hostQueue = [] → s.phase = .expand → s.stage = .loop → s.ooff < s.dlen.toNat →
    s.mask.toNat / 2 = 0 →
    (s.ioff < s.psize → Memory.read .input s.inMem (16 + s.ioff) = some c →
      Sys2Proof.core.run 2 s = .next { s with header := c, mask := 0x0080#16, ioff := s.ioff + 1, stage := .token }) ∧
    (s.psize ≤ s.ioff →
      Sys2Proof.core.run 2 s =
        .next { s with mask := 0#16, stage := .control, status := .malformedStream, phase := .done })

/-- R93: at the token the core decodes a literal exactly when `(HEADER & MASK[7:0]) != 0`, else a back-reference. -/
def Obligations.ControlBitSelectsTheToken : Prop :=
  ∀ (s : State) (i : Instr) (rest : List Byte), s.hostQueue = [] → s.phase = .expand → s.stage = .token →
    ((s.header &&& s.mask.setWidth 8) ≠ 0#8 → decode .literal (s.window .literal) = .ok (i, rest) →
      step s = exec i s) ∧
    ((s.header &&& s.mask.setWidth 8) = 0#8 → decode .backref (s.window .backref) = .ok (i, rest) →
      step s = exec i s)

/-- R91, R95: control bits are consumed from the most significant down: with `MASK = 0x80 >> i` the bit tested is bit
`7 - i` of `HEADER`, the next shift selects bit `6 - i`, and after bit 0 a control byte is due. -/
def Obligations.ControlBitsGoFromMostSignificantDown : Prop :=
  ∀ (s : State) (i : Nat), i ≤ 7 → s.mask = 0x0080#16 >>> i →
    (s.cbit = s.header.getLsbD (7 - i)) ∧
    (s.hostQueue = [] → s.phase = .expand → s.stage = .loop → s.ooff < s.dlen.toNat →
      (i < 7 → step s = .next { s with mask := 0x0080#16 >>> (i + 1), stage := .token }) ∧
      (i = 7 → step s = .next { s with mask := 0#16, stage := .control }))

/-- R92: CTRL with a payload byte left loads the control window, and nothing else changes but the counter. -/
def Obligations.CtrlLoadsTheWindow : Prop :=
  ∀ (c : Byte) (s : State), s.ioff < s.psize →
    exec (.ctrl c) s = .next { s with header := c, mask := 0x0080#16, ioff := s.ioff + 1, stage := .token }

/-- R43, R92, R126: CTRL with no payload byte left raises MalformedStream: `STATUS` and `PHASE` are written and nothing
else. -/
def Obligations.CtrlWithoutPayloadIsMalformed : Prop :=
  ∀ (c : Byte) (s : State), s.psize ≤ s.ioff →
    exec (.ctrl c) s = .next { s with status := .malformedStream, phase := .done }

/-- Frame of CTRL (R92). -/
def Obligations.CtrlLeavesTheRestAlone : Prop :=
  ∀ (c : Byte) (s t : State), exec (.ctrl c) s = .next t →
    SameHostSide s t ∧ SameBounds s t ∧ SameRefRegs s t ∧ SameOutput s t ∧
    ((t.phase = s.phase ∧ t.status = s.status) ∨ (EndedWith .malformedStream t ∧ SameWindow s t ∧ t.ioff = s.ioff))

/-! ### The literal copy -/

/-- R44, R100: LIT with a payload byte left and output owed writes its byte unchanged to `OUT[OOFF]` and to
`HIST[OOFF mod 4096]` and moves both cursors by one. -/
def Obligations.LitCopiesOneByte : Prop :=
  ∀ (imm8 : Byte) (s : State), s.memoryCanonical → s.ioff < s.psize → s.ooff < s.dlen.toNat →
    ∃ t, exec (.lit imm8) s = .next t ∧ t.outByte s.ooff = imm8 ∧ t.histByte (s.ooff % 4096) = imm8 ∧
      t.ioff = s.ioff + 1 ∧ t.ooff = s.ooff + 1 ∧ t.phase = s.phase ∧ t.status = s.status ∧ t.stage = .loop

/-- R100, R126: LIT with no payload byte left raises MalformedStream; OUT is not written and no cursor moves. -/
def Obligations.LitWithoutPayloadIsMalformed : Prop :=
  ∀ (imm8 : Byte) (s : State), s.psize ≤ s.ioff → s.ooff < s.dlen.toNat →
    exec (.lit imm8) s = .next { s with status := .malformedStream, phase := .done }

/-- R101: LIT when the output is already complete ends the run with OK: no read, no write, no advance. -/
def Obligations.LitAtTheEndFinishes : Prop :=
  ∀ (imm8 : Byte) (s : State), s.ooff = s.dlen.toNat →
    exec (.lit imm8) s = .next { s with status := .ok, phase := .done }

/-- Frame of LIT (R100): besides the cursors only `OUT[OOFF]` and `HIST[OOFF mod 4096]` may change. -/
def Obligations.LitLeavesTheRestAlone : Prop :=
  ∀ (imm8 : Byte) (s t : State), s.memoryCanonical → exec (.lit imm8) s = .next t →
    SameHostSide s t ∧ SameBounds s t ∧ SameWindow s t ∧ SameRefRegs s t ∧
    (∀ a, a ≠ s.ooff → t.outByte a = s.outByte a) ∧ (∀ j, j ≠ s.ooff % 4096 → t.histByte j = s.histByte j) ∧
    ((t.phase = s.phase ∧ t.status = s.status) ∨
      ((EndedWith .malformedStream t ∨ EndedWith .ok t) ∧ SameOutput s t ∧ t.ioff = s.ioff))

/-! ### The back-reference copier -/

/-- R106, R107, R110 to R113, R116: REFS whose bytes are there, whose source is within the output and whose copy fits
completes: the registers hold its operands, and byte `k` of the copy is the byte `k mod GAP` of the pattern that ends
at the cursor. -/
def Obligations.RefsCopiesThePattern : Prop :=
  ∀ (n : Nibble) (dist : Dist) (s : State), n ≠ 0#4 → s.memoryCanonical → s.ioff + 2 ≤ s.psize →
    dist.toNat + 1 ≤ s.ooff → s.ooff + (n.toNat + 2) ≤ s.dlen.toNat →
    ∃ t, exec (.refs n dist) s = .next t ∧
      t.ioff = s.ioff + 2 ∧ t.ooff = s.ooff + (n.toNat + 2) ∧
      t.byte1.toNat = 16 * n.toNat + dist.toNat / 256 ∧ t.byte2.toNat = dist.toNat % 256 ∧
      t.dist = dist ∧ t.gap = dist.toNat + 1 ∧ t.len = n.toNat + 2 ∧
      t.pos = s.ooff - (dist.toNat + 1) + (n.toNat + 2) ∧
      (∀ k, k < n.toNat + 2 →
        t.outByte (s.ooff + k) = s.outByte (s.ooff - (dist.toNat + 1) + k % (dist.toNat + 1))) ∧
      t.phase = s.phase ∧ t.status = s.status ∧ t.stage = .loop

/-- R106, R108, R110 to R113, R117: the same for REFL, with `LEN = BYTE3 + 18`, up to 273. -/
def Obligations.ReflCopiesThePattern : Prop :=
  ∀ (dist : Dist) (m : Byte) (s : State), s.memoryCanonical → s.ioff + 3 ≤ s.psize →
    dist.toNat + 1 ≤ s.ooff → s.ooff + (m.toNat + 18) ≤ s.dlen.toNat →
    ∃ t, exec (.refl dist m) s = .next t ∧
      t.ioff = s.ioff + 3 ∧ t.ooff = s.ooff + (m.toNat + 18) ∧
      t.byte1.toNat = dist.toNat / 256 ∧ t.byte2.toNat = dist.toNat % 256 ∧ t.byte3 = m ∧
      t.dist = dist ∧ t.gap = dist.toNat + 1 ∧ t.len = m.toNat + 18 ∧
      t.pos = s.ooff - (dist.toNat + 1) + (m.toNat + 18) ∧
      (∀ k, k < m.toNat + 18 →
        t.outByte (s.ooff + k) = s.outByte (s.ooff - (dist.toNat + 1) + k % (dist.toNat + 1))) ∧
      t.phase = s.phase ∧ t.status = s.status ∧ t.stage = .loop

/-- R43, R110, R111, R116, R124, R129: REFS raises MalformedStream when one of its two bytes is missing, when its source
lies before the start of the output or when its copy would run past `DLEN`; then it has written no byte of OUT or HIST
and `OOFF` stands. -/
def Obligations.RefsIsMalformedOutOfBounds : Prop :=
  ∀ (n : Nibble) (dist : Dist) (s : State), n ≠ 0#4 →
    s.psize < s.ioff + 2 ∨ s.ooff < dist.toNat + 1 ∨ s.dlen.toNat < s.ooff + (n.toNat + 2) →
    ∃ t, exec (.refs n dist) s = .next t ∧ EndedWith .malformedStream t ∧ SameOutput s t

/-- R43, R110, R111, R117, R124, R129: the same for REFL with its three bytes. -/
def Obligations.ReflIsMalformedOutOfBounds : Prop :=
  ∀ (dist : Dist) (m : Byte) (s : State),
    s.psize < s.ioff + 3 ∨ s.ooff < dist.toNat + 1 ∨ s.dlen.toNat < s.ooff + (m.toNat + 18) →
    ∃ t, exec (.refl dist m) s = .next t ∧ EndedWith .malformedStream t ∧ SameOutput s t

/-- The model's choice (log 20; R64): the ill-formed term REFS with a zero nibble, which no bytes encode, is refused. -/
def Obligations.RefsWithZeroNibbleIsRefused : Prop :=
  ∀ (dist : Dist) (s : State), exec (.refs 0#4 dist) s = .refused .refsZeroNibble

/-- Frame of REFS and REFL (R44, R50, R116, R117): besides `IOFF`, `OOFF` and the back-reference registers only the
`LEN` bytes of OUT from `OOFF` on and the slots of HIST that mirror them may change; REFS leaves `BYTE3` alone. -/
def Obligations.BackrefsLeaveTheRestAlone : Prop :=
  ∀ (i : Instr) (dist : Dist) (len : Nat) (s t : State), copyOperands i = some (dist, len) → s.memoryCanonical →
    exec i s = .next t →
    SameHostSide s t ∧ SameBounds s t ∧ SameWindow s t ∧
    (∀ a, a < s.ooff ∨ s.ooff + len ≤ a → t.outByte a = s.outByte a) ∧
    (∀ j, (∀ k, k < len → j ≠ (s.ooff + k) % 4096) → t.histByte j = s.histByte j) ∧
    (i.size = 2 → t.byte3 = s.byte3) ∧
    ((t.phase = s.phase ∧ t.status = s.status) ∨ EndedWith .malformedStream t)

/-- R113: the overlap law: after a copy of `k` bytes from `GAP` behind the cursor, byte `j` of the destination is byte
`j mod GAP` of the source as it stood before the copy, overlap or not; no other byte of OUT changes. -/
def Obligations.OverlapLaw : Prop :=
  ∀ (k gap : Nat) (s : State), s.memoryCanonical → 0 < gap → s.pos + gap = s.ooff →
    (∀ j, j < k → (copyBytes k s).outByte (s.ooff + j) = s.outByte (s.pos + j % gap)) ∧
    (∀ a, a < s.ooff ∨ s.ooff + k ≤ a → (copyBytes k s).outByte a = s.outByte a)

/-- R114: reading the first `min(LEN, GAP)` bytes at once and copying the rest in byte order gives the same state. -/
def Obligations.BulkPrefixCopyIsTheSame : Prop :=
  ∀ (len : Nat) (s : State), s.memoryCanonical → s.pos + s.gap = s.ooff →
    copyBytesBulk len s = copyBytes len s

/-- R45, R115: serving the copy from the 4096-byte circular history buffer gives the same state, for every distance the
encoding can express. -/
def Obligations.CircularBufferCopyIsTheSame : Prop :=
  ∀ (len : Nat) (s : State), s.memoryCanonical → s.historyView → 0 < s.gap → s.gap ≤ 4096 → s.pos + s.gap = s.ooff →
    copyBytesHist len s = copyBytes len s

/-! ### The step -/

/-- R66, R94: when the bytes a window holds decode to a token, the core's step is exactly that token's meaning: HDR
once the guards have passed, CTRL at the control fetch, the token the control bit selects. -/
def Obligations.StepRunsTheDecodedToken : Prop :=
  ∀ (s : State) (i : Instr) (rest : List Byte), s.hostQueue = [] →
    (s.phase = .header → s.present = true → 16 ≤ s.n → s.n ≤ Memory.filledFrom 0 s.inMem →
      decode .header (s.window .header) = .ok (i, rest) → step s = exec i s) ∧
    (s.phase = .expand → s.stage = .control → decode .control (s.window .control) = .ok (i, rest) →
      step s = exec i s) ∧
    (s.phase = .expand → s.stage = .token → decode s.tokenMode (s.window s.tokenMode) = .ok (i, rest) →
      step s = exec i s)

/-- R43, R49, R66: the bytes are taken from IN at `16 + IOFF`, first byte first: when the encoding of a well-formed
token lies there whole, within `PSIZE`, and the core is due a token of that mode, the step is that token's meaning. -/
def Obligations.StepRunsTheTokenStoredAtThePayloadOffset : Prop :=
  ∀ (s : State) (i : Instr), s.hostQueue = [] → s.phase = .expand → i.wf = true → s.ioff + i.size ≤ s.psize →
    (∀ k, k < i.size → Memory.read .input s.inMem (16 + s.ioff + k) = (encode i)[k]?) →
    (i.mode = .control ∧ s.stage = .control) ∨
      (s.stage = .token ∧ ((i.mode = .literal ∧ s.cbit = true) ∨ (i.mode = .backref ∧ s.cbit = false))) →
    step s = exec i s

/-- R43, R109 and log 16: where the payload ends inside a token, the bytes the window is padded with are never used: two
decodings that agree on the payload bytes there are have the same meaning. -/
def Obligations.PaddingBytesAreNeverUsed : Prop :=
  ∀ (m : Mode) (s : State) (b1 b2 b3 c1 c2 c3 : Byte) (i j : Instr) (rest left : List Byte), m ≠ .header →
    decode m [b1, b2, b3] = .ok (i, rest) → decode m [c1, c2, c3] = .ok (j, left) →
    (s.ioff < s.psize → b1 = c1) → (s.ioff + 1 < s.psize → b2 = c2) → (s.ioff + 2 < s.psize → b3 = c3) →
    exec i s = exec j s

/-! ### Invariants and whole-machine rules -/

/-- The invariant holds right after reset (the reset values the spec leaves open are the model's choice, log 4 and
log 5). -/
def Obligations.ResetMeetsTheInvariant : Prop := State.reset.Inv

/-- R12, R19 to R22, R40 to R45, R50: every step, the host's moves among them, keeps the invariant of the machine:
memories canonical, `MASK` zero or one-hot, cursors within bounds, OUT listed only below the cursor, the HIST view. (A
hardware reset gives the values the model chose, log 4 and log 5; START keeps the registers R28 leaves open, log 28.) -/
def Obligations.EveryStepKeepsTheInvariant : Prop :=
  ∀ s t : State, s.Inv → step s = .next t → t.Inv

/-- R22: `MASK` never leaves its nine values, is zero at a control fetch and one-hot when a token is due. (At hardware
reset it is zero by the model's choice, log 4; START keeps it by the model's choice, log 28.) -/
def Obligations.MaskStaysOneHot : Prop :=
  ∀ s t : State, s.maskLegal → step s = .next t → t.maskLegal

/-- R44, R45: every step keeps `HIST[p mod 4096] = OUT[p]` for the last 4096 bytes produced. (After a hardware reset it
holds because the model sets `OOFF` to 0, its choice, log 4; at START because it keeps `OOFF`, OUT and HIST, its choice,
log 28.) -/
def Obligations.HistoryMirrorsTheOutput : Prop :=
  ∀ s t : State, s.memoryCanonical → s.historyView → step s = .next t → t.historyView

/-- R15: the values of `PHASE`, and its only transitions: IDLE or DONE to HEADER at START, HEADER to EXPAND, HEADER or
EXPAND to DONE, and hardware reset to IDLE. -/
def Obligations.PhaseMovesOnlyAsListed : Prop :=
  (Phase.code .idle = 0#2 ∧ Phase.code .header = 1#2 ∧ Phase.code .expand = 2#2 ∧ Phase.code .done = 3#2) ∧
  ∀ s t : State, step s = .next t → t.phase = s.phase ∨
    ((s.phase = .idle ∨ s.phase = .done) ∧ t.phase = .header ∧
      ∃ v rest, s.hostQueue = .writeReg .ctrl v :: rest ∧ v.testBit 0 = true) ∨
    (s.phase = .header ∧ t.phase = .expand) ∨
    ((s.phase = .header ∨ s.phase = .expand) ∧ t.phase = .done) ∨
    ((∃ rest, s.hostQueue = .reset :: rest) ∧ t.phase = .idle)

/-- R40, R54, R132: the core never writes IN, the host's registers or what START sampled, whatever the stream holds. -/
def Obligations.CoreNeverWritesTheInput : Prop :=
  ∀ s t : State, s.hostQueue = [] → step s = .next t →
    t.inMem = s.inMem ∧ t.inSize = s.inSize ∧ t.inPresent = s.inPresent ∧ t.n = s.n ∧ t.present = s.present ∧
    t.hostQueue = [] ∧ t.readData = s.readData

/-- R18, R19, R42, R50: in Phase 2 a core step writes OUT only at indices from the old cursor up to the new one, which
never goes back and never passes `DLEN`; `DLEN` and `PSIZE` stand. -/
def Obligations.OutputIsWrittenInOrderWithinBounds : Prop :=
  ∀ s t : State, s.hostQueue = [] → s.phase = .expand → s.memoryCanonical → s.ooff ≤ s.dlen.toNat → step s = .next t →
    s.ooff ≤ t.ooff ∧ t.ooff ≤ s.dlen.toNat ∧ t.dlen = s.dlen ∧ t.psize = s.psize ∧
    ∀ a, a < s.ooff ∨ t.ooff ≤ a → t.outByte a = s.outByte a

/-- R20, R98: in Phase 2 the program counter never goes back, moves by at most three bytes in a step and never passes
`PSIZE`: there are no jumps. (Three bytes is the most a step takes in the grain the model chose, log 1, where a control
byte and its token are two steps; an iteration of R94 takes up to four.) -/
def Obligations.PayloadCounterOnlyAdvances : Prop :=
  ∀ s t : State, s.hostQueue = [] → s.phase = .expand → s.ioff ≤ s.psize → step s = .next t →
    s.ioff ≤ t.ioff ∧ t.ioff ≤ s.ioff + 3 ∧ t.ioff ≤ s.psize

/-- R97: every token either ends the run or produces at least 1 and at most 273 bytes of output. -/
def Obligations.EveryTokenEndsOrProduces : Prop :=
  ∀ s t : State, s.hostQueue = [] → s.phase = .expand → s.stage = .token → step s = .next t →
    t.phase = .done ∨ (t.phase = .expand ∧ t.stage = .loop ∧ s.ooff + 1 ≤ t.ooff ∧ t.ooff ≤ s.ooff + 273)

/-- R41, R55, R70: in a state that meets the invariant the core never stops in Phase 2, whatever bytes the payload
holds: every step answers a next state. -/
def Obligations.NoPayloadStopsTheCore : Prop :=
  ∀ s : State, s.Inv → s.hostQueue = [] → s.phase = .expand → Answers (step s)

/-- R97, R150: every run ends: from any state of Phase 2 that meets the invariant the core reaches DONE, with OK or
MalformedStream, within three steps for each byte of output still owed and three more. (The steps counted are those of
the grain the model chose, log 1.) -/
def Obligations.EveryRunEnds : Prop :=
  ∀ s : State, s.Inv → s.hostQueue = [] → s.phase = .expand →
    ∃ k t, k ≤ 3 * (s.dlen.toNat - s.ooff) + 3 ∧ Sys2Proof.core.run k s = .next t ∧
      (EndedWith .ok t ∨ EndedWith .malformedStream t)

/-- R96, R128: a run of Phase 2 that ends with OK has produced exactly `DLEN` bytes. -/
def Obligations.OkMeansTheOutputIsComplete : Prop :=
  ∀ s t : State, s.hostQueue = [] → s.phase = .expand → s.ooff ≤ s.dlen.toNat → step s = .next t →
    t.phase = .done → t.status = .ok → t.ooff = t.dlen.toNat

/-- R31: a run depends on nothing an earlier run left: two machines in HEADER with the same IN, `N` and `present`, and
any contents of every other register and of OUT and HIST, show the host the same phase, status, `DLEN` and result
after every number of steps. -/
def Obligations.ARunDependsOnlyOnItsInput : Prop :=
  ∀ (s u : State), s.hostQueue = [] → u.hostQueue = [] → s.phase = .header → u.phase = .header →
    u.inMem = s.inMem → u.n = s.n → u.present = s.present →
    ∀ (k : Nat) (t : State), Sys2Proof.core.run k s = .next t →
      ∃ v, Sys2Proof.core.run k u = .next v ∧ SameResult t v
end

