-- ==== Sys2Proof/Laws/Decode.lean ====
section
/-! SUPPORT. What the decoder can answer in each mode. -/

namespace Sys2Proof

/-- Where the decoder accepts a header record (R61, R83). -/
theorem decodeHeader_ok {bs rest : List Byte} {i : Instr} (h : decodeHeader bs = .ok (i, rest)) :
    ∃ d r, i = .hdr d r := by
  unfold decodeHeader at h
  split at h
  · split at h
    · unfold decodeLength at h
      split at h
      · simp only [Except.ok.injEq, Prod.mk.injEq] at h
        exact ⟨_, _, h.1.symm⟩
      · simp at h
    · simp at h
  · simp at h

/-- Where the decoder accepts a control byte (R62). -/
theorem decodeControl_ok {bs rest : List Byte} {i : Instr} (h : decodeControl bs = .ok (i, rest)) :
    ∃ c, i = .ctrl c ∧ bs = c :: rest := by
  cases bs with
  | nil => simp [decodeControl] at h
  | cons c bs =>
    simp only [decodeControl, Except.ok.injEq, Prod.mk.injEq] at h
    exact ⟨c, h.1.symm, by rw [h.2]⟩

/-- Where the decoder accepts a literal (R63). -/
theorem decodeLiteral_ok {bs rest : List Byte} {i : Instr} (h : decodeLiteral bs = .ok (i, rest)) :
    ∃ v, i = .lit v ∧ bs = v :: rest := by
  cases bs with
  | nil => simp [decodeLiteral] at h
  | cons v bs =>
    simp only [decodeLiteral, Except.ok.injEq, Prod.mk.injEq] at h
    exact ⟨v, h.1.symm, by rw [h.2]⟩

/-- Where the decoder accepts a back-reference: long when the nibble is zero, else short (R64, R65). -/
theorem decodeBackref_ok {bs rest : List Byte} {i : Instr} (h : decodeBackref bs = .ok (i, rest)) :
    ∃ b1 b2,
      (highNibble b1 = 0#4 ∧ ∃ b3, i = .refl (distField b1 b2) b3 ∧ bs = b1 :: b2 :: b3 :: rest) ∨
      (highNibble b1 ≠ 0#4 ∧ i = .refs (highNibble b1) (distField b1 b2) ∧ bs = b1 :: b2 :: rest) := by
  unfold decodeBackref at h
  split at h
  · next b1 b2 left =>
    split at h
    · next hz =>
      cases left with
      | nil => simp at h
      | cons b3 left =>
        simp only [Except.ok.injEq, Prod.mk.injEq] at h
        exact ⟨b1, b2, .inl ⟨hz, b3, h.1.symm, by rw [h.2]⟩⟩
    · next hz =>
      simp only [Except.ok.injEq, Prod.mk.injEq] at h
      exact ⟨b1, b2, .inr ⟨hz, h.1.symm, by rw [h.2]⟩⟩
  · simp at h

/-- Only a header record can be rejected for its magic (R70, R83). -/
theorem decode_badMagic {m : Mode} {bs : List Byte} (h : decode m bs = .error .badMagic) : m = .header := by
  cases m with
  | header => rfl
  | control => cases bs <;> simp [decode, decodeControl] at h
  | literal => cases bs <;> simp [decode, decodeLiteral] at h
  | backref =>
    simp only [decode, decodeBackref] at h
    split at h
    · split at h
      · split at h <;> simp at h
      · simp at h
    · simp at h

end Sys2Proof
end

