-- ==== Sys2Proof/Laws/Memory.lean ====
section
/-! SUPPORT. The laws of the memory operations: a read after a write, and that every operation keeps the canonical
form. -/

namespace Sys2Proof.Machine

open Sys2Proof.Config (Space unlisted)

variable {sp : Space}

/-! ### Rising addresses -/

theorem risesFrom_mono {lo lo' : Nat} {m : Memory} (h : lo' ≤ lo) (hm : Memory.risesFrom lo m = true) :
    Memory.risesFrom lo' m = true := by
  cases m with
  | nil => rfl
  | cons c m =>
    simp only [Memory.risesFrom, Bool.and_eq_true, decide_eq_true_eq] at hm ⊢
    exact ⟨h.trans hm.1, hm.2⟩

/-- Below the first listed address nothing is listed. -/
theorem read_below {lo a : Nat} {m : Memory} (hm : Memory.risesFrom lo m = true) (h : a < lo) :
    Memory.read sp m a = unlisted sp := by
  induction m generalizing lo with
  | nil => rfl
  | cons c m ih =>
    obtain ⟨b, w⟩ := c
    simp only [Memory.risesFrom, Bool.and_eq_true, decide_eq_true_eq] at hm
    have hne : a ≠ b := by omega
    simp only [Memory.read, if_neg hne]
    exact ih hm.2 (by omega)

theorem risesFrom_put {lo a : Nat} {v : Byte} {m : Memory} (h : lo ≤ a) (hm : Memory.risesFrom (a + 1) m = true) :
    Memory.risesFrom lo (Memory.put sp a v m) = true := by
  unfold Memory.put
  split
  · exact risesFrom_mono (by omega) hm
  · simp [Memory.risesFrom, h, hm]

theorem risesFrom_write {lo a : Nat} {v : Byte} {m : Memory} (h : lo ≤ a) (hm : Memory.risesFrom lo m = true) :
    Memory.risesFrom lo (Memory.write sp m a v) = true := by
  induction m generalizing lo with
  | nil => exact risesFrom_put h rfl
  | cons c m ih =>
    obtain ⟨b, w⟩ := c
    simp only [Memory.risesFrom, Bool.and_eq_true, decide_eq_true_eq] at hm
    unfold Memory.write
    split
    · next hab =>
      refine risesFrom_put h ?_
      simp only [Memory.risesFrom, Bool.and_eq_true, decide_eq_true_eq]
      exact ⟨hab, hm.2⟩
    · split
      · next heq => subst heq; exact risesFrom_put h hm.2
      · simp only [Memory.risesFrom, Bool.and_eq_true, decide_eq_true_eq]
        exact ⟨hm.1, ih (by omega) hm.2⟩

/-! ### Minimality -/

theorem minimal_put {a : Nat} {v : Byte} {m : Memory} (hm : Memory.minimal sp m = true) :
    Memory.minimal sp (Memory.put sp a v m) = true := by
  unfold Memory.put
  split
  · exact hm
  · next h => simpa [Memory.minimal, List.all_cons] using And.intro h (by simpa [Memory.minimal] using hm)

theorem minimal_write {a : Nat} {v : Byte} {m : Memory} (hm : Memory.minimal sp m = true) :
    Memory.minimal sp (Memory.write sp m a v) = true := by
  induction m with
  | nil => exact minimal_put rfl
  | cons c m ih =>
    obtain ⟨b, w⟩ := c
    have hc : unlisted sp ≠ some w ∧ Memory.minimal sp m = true := by
      simpa [Memory.minimal, List.all_cons] using hm
    unfold Memory.write
    split
    · exact minimal_put hm
    · split
      · exact minimal_put hc.2
      · simpa [Memory.minimal, List.all_cons] using And.intro hc.1 (ih hc.2)

/-! ### Reading what was written -/

theorem read_put_same {a : Nat} {v : Byte} {m : Memory} (hm : Memory.risesFrom (a + 1) m = true) :
    Memory.read sp (Memory.put sp a v m) a = some v := by
  unfold Memory.put
  split
  · next h => rw [read_below hm (by omega), h]
  · simp [Memory.read]

theorem read_put_other {a b : Nat} {v : Byte} {m : Memory} (h : b ≠ a) :
    Memory.read sp (Memory.put sp a v m) b = Memory.read sp m b := by
  unfold Memory.put
  split
  · rfl
  · simp [Memory.read, h]

theorem read_write_same_from {lo a : Nat} {v : Byte} {m : Memory} (hm : Memory.risesFrom lo m = true) :
    Memory.read sp (Memory.write sp m a v) a = some v := by
  induction m generalizing lo with
  | nil => exact read_put_same rfl
  | cons c m ih =>
    obtain ⟨b, w⟩ := c
    simp only [Memory.risesFrom, Bool.and_eq_true, decide_eq_true_eq] at hm
    unfold Memory.write
    split
    · next hab =>
      refine read_put_same ?_
      simp only [Memory.risesFrom, Bool.and_eq_true, decide_eq_true_eq]
      exact ⟨hab, hm.2⟩
    · split
      · next heq => subst heq; exact read_put_same hm.2
      · next hne => simp only [Memory.read, if_neg hne]; exact ih hm.2

/-- A write leaves every other address alone. -/
theorem read_write_other_from {lo a b : Nat} {v : Byte} {m : Memory} (hm : Memory.risesFrom lo m = true) (h : b ≠ a) :
    Memory.read sp (Memory.write sp m a v) b = Memory.read sp m b := by
  induction m generalizing lo with
  | nil => exact read_put_other h
  | cons c m ih =>
    obtain ⟨e, w⟩ := c
    simp only [Memory.risesFrom, Bool.and_eq_true, decide_eq_true_eq] at hm
    unfold Memory.write
    split
    · exact read_put_other h
    · split
      · next heq => subst heq; rw [read_put_other h]; simp [Memory.read, h]
      · by_cases hbe : b = e
        · simp [Memory.read, hbe]
        · simp only [Memory.read, if_neg hbe]; exact ih hm.2

/-! ### The canonical form -/

theorem wf_rises {m : Memory} (h : Memory.wf sp m = true) : Memory.risesFrom 0 m = true := by
  simp only [Memory.wf, Bool.and_eq_true] at h; exact h.1

theorem wf_nil : Memory.wf sp [] = true := rfl

/-- A write keeps the canonical form. -/
theorem wf_write {a : Nat} {v : Byte} {m : Memory} (h : Memory.wf sp m = true) :
    Memory.wf sp (Memory.write sp m a v) = true := by
  simp only [Memory.wf, Bool.and_eq_true] at h ⊢
  exact ⟨risesFrom_write (Nat.zero_le a) h.1, minimal_write h.2⟩

/-- Placing bytes keeps the canonical form. -/
theorem wf_place {vs : List Byte} {m : Memory} {a : Nat} (h : Memory.wf sp m = true) :
    Memory.wf sp (Memory.place sp m a vs) = true := by
  induction vs generalizing m a with
  | nil => exact h
  | cons v vs ih => exact ih (wf_write h)

/-- The byte written is the byte read. -/
theorem read_write_same {a : Nat} {v : Byte} {m : Memory} (h : Memory.wf sp m = true) :
    Memory.read sp (Memory.write sp m a v) a = some v := read_write_same_from (wf_rises h)

/-- A write leaves every other address alone. -/
theorem read_write_other {a b : Nat} {v : Byte} {m : Memory} (h : Memory.wf sp m = true) (hb : b ≠ a) :
    Memory.read sp (Memory.write sp m a v) b = Memory.read sp m b := read_write_other_from (wf_rises h) hb

/-! ### Which addresses are listed -/

theorem mem_put {a : Nat} {v : Byte} {m : Memory} {c : Host.Cell} (hc : c ∈ Memory.put sp a v m) :
    c.1 = a ∨ c ∈ m := by
  unfold Memory.put at hc
  split at hc
  · exact .inr hc
  · rcases List.mem_cons.mp hc with rfl | h
    · exact .inl rfl
    · exact .inr h

/-- A write lists no address but its own. -/
theorem mem_write {a : Nat} {v : Byte} {m : Memory} {c : Host.Cell} (hc : c ∈ Memory.write sp m a v) :
    c.1 = a ∨ c ∈ m := by
  induction m with
  | nil => simpa using mem_put hc
  | cons d m ih =>
    obtain ⟨b, w⟩ := d
    unfold Memory.write at hc
    split at hc
    · exact mem_put hc
    · split at hc
      · exact (mem_put hc).imp_right (List.mem_cons_of_mem _)
      · rcases List.mem_cons.mp hc with rfl | h
        · exact .inr (List.mem_cons_self ..)
        · exact (ih h).imp_right (List.mem_cons_of_mem _)

/-- Every byte below the filled length has a value. -/
theorem read_filled {m : Memory} {lo a : Nat} (h : a < lo + Memory.filledFrom lo m) (hlo : lo ≤ a) :
    ∃ v, Memory.read sp m a = some v := by
  induction m generalizing lo with
  | nil => simp only [Memory.filledFrom] at h; omega
  | cons c m ih =>
    obtain ⟨b, w⟩ := c
    by_cases hab : a = b
    · exact ⟨w, by simp [Memory.read, hab]⟩
    · simp only [Memory.filledFrom] at h
      split at h
      · next hb =>
        obtain ⟨v, hv⟩ := ih (lo := lo + 1) (by omega) (by omega)
        exact ⟨v, by simpa [Memory.read, hab] using hv⟩
      · omega

end Sys2Proof.Machine
end

