-- ==== Sys2Proof/Laws/State.lean ====
section
/-! SUPPORT. One lemma per field for each named update of the state, true by `rfl`, so that no proof unfolds a record
update. -/

namespace Sys2Proof.Machine

variable (s : State)

/-! ### `raise` -/

@[simp] theorem raise_inPresent (r : Reason) : (raise r s).inPresent = s.inPresent := rfl
@[simp] theorem raise_phase (r : Reason) : (raise r s).phase = .done := rfl
@[simp] theorem raise_status (r : Reason) : (raise r s).status = r.signal := rfl
@[simp] theorem raise_inSize (r : Reason) : (raise r s).inSize = s.inSize := rfl
@[simp] theorem raise_dlen (r : Reason) : (raise r s).dlen = s.dlen := rfl
@[simp] theorem raise_n (r : Reason) : (raise r s).n = s.n := rfl
@[simp] theorem raise_present (r : Reason) : (raise r s).present = s.present := rfl
@[simp] theorem raise_psize (r : Reason) : (raise r s).psize = s.psize := rfl
@[simp] theorem raise_ioff (r : Reason) : (raise r s).ioff = s.ioff := rfl
@[simp] theorem raise_ooff (r : Reason) : (raise r s).ooff = s.ooff := rfl
@[simp] theorem raise_mask (r : Reason) : (raise r s).mask = s.mask := rfl
@[simp] theorem raise_header (r : Reason) : (raise r s).header = s.header := rfl
@[simp] theorem raise_byte1 (r : Reason) : (raise r s).byte1 = s.byte1 := rfl
@[simp] theorem raise_byte2 (r : Reason) : (raise r s).byte2 = s.byte2 := rfl
@[simp] theorem raise_byte3 (r : Reason) : (raise r s).byte3 = s.byte3 := rfl
@[simp] theorem raise_dist (r : Reason) : (raise r s).dist = s.dist := rfl
@[simp] theorem raise_len (r : Reason) : (raise r s).len = s.len := rfl
@[simp] theorem raise_gap (r : Reason) : (raise r s).gap = s.gap := rfl
@[simp] theorem raise_pos (r : Reason) : (raise r s).pos = s.pos := rfl
@[simp] theorem raise_inMem (r : Reason) : (raise r s).inMem = s.inMem := rfl
@[simp] theorem raise_outMem (r : Reason) : (raise r s).outMem = s.outMem := rfl
@[simp] theorem raise_histMem (r : Reason) : (raise r s).histMem = s.histMem := rfl
@[simp] theorem raise_histFill (r : Reason) : (raise r s).histFill = s.histFill := rfl
@[simp] theorem raise_stage (r : Reason) : (raise r s).stage = s.stage := rfl
@[simp] theorem raise_hostQueue (r : Reason) : (raise r s).hostQueue = s.hostQueue := rfl
@[simp] theorem raise_readData (r : Reason) : (raise r s).readData = s.readData := rfl
@[simp] theorem raise_draws (r : Reason) : (raise r s).draws = s.draws := rfl

/-! ### `finish OK` -/

@[simp] theorem finishOk_inPresent : (finishOk s).inPresent = s.inPresent := rfl
@[simp] theorem finishOk_phase : (finishOk s).phase = .done := rfl
@[simp] theorem finishOk_status : (finishOk s).status = .ok := rfl
@[simp] theorem finishOk_inSize : (finishOk s).inSize = s.inSize := rfl
@[simp] theorem finishOk_dlen : (finishOk s).dlen = s.dlen := rfl
@[simp] theorem finishOk_n : (finishOk s).n = s.n := rfl
@[simp] theorem finishOk_present : (finishOk s).present = s.present := rfl
@[simp] theorem finishOk_psize : (finishOk s).psize = s.psize := rfl
@[simp] theorem finishOk_ioff : (finishOk s).ioff = s.ioff := rfl
@[simp] theorem finishOk_ooff : (finishOk s).ooff = s.ooff := rfl
@[simp] theorem finishOk_mask : (finishOk s).mask = s.mask := rfl
@[simp] theorem finishOk_header : (finishOk s).header = s.header := rfl
@[simp] theorem finishOk_byte1 : (finishOk s).byte1 = s.byte1 := rfl
@[simp] theorem finishOk_byte2 : (finishOk s).byte2 = s.byte2 := rfl
@[simp] theorem finishOk_byte3 : (finishOk s).byte3 = s.byte3 := rfl
@[simp] theorem finishOk_dist : (finishOk s).dist = s.dist := rfl
@[simp] theorem finishOk_len : (finishOk s).len = s.len := rfl
@[simp] theorem finishOk_gap : (finishOk s).gap = s.gap := rfl
@[simp] theorem finishOk_pos : (finishOk s).pos = s.pos := rfl
@[simp] theorem finishOk_inMem : (finishOk s).inMem = s.inMem := rfl
@[simp] theorem finishOk_outMem : (finishOk s).outMem = s.outMem := rfl
@[simp] theorem finishOk_histMem : (finishOk s).histMem = s.histMem := rfl
@[simp] theorem finishOk_histFill : (finishOk s).histFill = s.histFill := rfl
@[simp] theorem finishOk_stage : (finishOk s).stage = s.stage := rfl
@[simp] theorem finishOk_hostQueue : (finishOk s).hostQueue = s.hostQueue := rfl
@[simp] theorem finishOk_readData : (finishOk s).readData = s.readData := rfl
@[simp] theorem finishOk_draws : (finishOk s).draws = s.draws := rfl

/-! ### One byte of payload consumed -/

@[simp] theorem advance_inPresent : (advance s).inPresent = s.inPresent := rfl
@[simp] theorem advance_phase : (advance s).phase = s.phase := rfl
@[simp] theorem advance_status : (advance s).status = s.status := rfl
@[simp] theorem advance_inSize : (advance s).inSize = s.inSize := rfl
@[simp] theorem advance_dlen : (advance s).dlen = s.dlen := rfl
@[simp] theorem advance_n : (advance s).n = s.n := rfl
@[simp] theorem advance_present : (advance s).present = s.present := rfl
@[simp] theorem advance_psize : (advance s).psize = s.psize := rfl
@[simp] theorem advance_ioff : (advance s).ioff = s.ioff + 1 := rfl
@[simp] theorem advance_ooff : (advance s).ooff = s.ooff := rfl
@[simp] theorem advance_mask : (advance s).mask = s.mask := rfl
@[simp] theorem advance_header : (advance s).header = s.header := rfl
@[simp] theorem advance_byte1 : (advance s).byte1 = s.byte1 := rfl
@[simp] theorem advance_byte2 : (advance s).byte2 = s.byte2 := rfl
@[simp] theorem advance_byte3 : (advance s).byte3 = s.byte3 := rfl
@[simp] theorem advance_dist : (advance s).dist = s.dist := rfl
@[simp] theorem advance_len : (advance s).len = s.len := rfl
@[simp] theorem advance_gap : (advance s).gap = s.gap := rfl
@[simp] theorem advance_pos : (advance s).pos = s.pos := rfl
@[simp] theorem advance_inMem : (advance s).inMem = s.inMem := rfl
@[simp] theorem advance_outMem : (advance s).outMem = s.outMem := rfl
@[simp] theorem advance_histMem : (advance s).histMem = s.histMem := rfl
@[simp] theorem advance_histFill : (advance s).histFill = s.histFill := rfl
@[simp] theorem advance_stage : (advance s).stage = s.stage := rfl
@[simp] theorem advance_hostQueue : (advance s).hostQueue = s.hostQueue := rfl
@[simp] theorem advance_readData : (advance s).readData = s.readData := rfl
@[simp] theorem advance_draws : (advance s).draws = s.draws := rfl

/-! ### One byte of output -/

@[simp] theorem emit_inPresent (v : Byte) : (emit v s).inPresent = s.inPresent := rfl
@[simp] theorem emit_phase (v : Byte) : (emit v s).phase = s.phase := rfl
@[simp] theorem emit_status (v : Byte) : (emit v s).status = s.status := rfl
@[simp] theorem emit_inSize (v : Byte) : (emit v s).inSize = s.inSize := rfl
@[simp] theorem emit_dlen (v : Byte) : (emit v s).dlen = s.dlen := rfl
@[simp] theorem emit_n (v : Byte) : (emit v s).n = s.n := rfl
@[simp] theorem emit_present (v : Byte) : (emit v s).present = s.present := rfl
@[simp] theorem emit_psize (v : Byte) : (emit v s).psize = s.psize := rfl
@[simp] theorem emit_ioff (v : Byte) : (emit v s).ioff = s.ioff := rfl
@[simp] theorem emit_ooff (v : Byte) : (emit v s).ooff = s.ooff + 1 := rfl
@[simp] theorem emit_mask (v : Byte) : (emit v s).mask = s.mask := rfl
@[simp] theorem emit_header (v : Byte) : (emit v s).header = s.header := rfl
@[simp] theorem emit_byte1 (v : Byte) : (emit v s).byte1 = s.byte1 := rfl
@[simp] theorem emit_byte2 (v : Byte) : (emit v s).byte2 = s.byte2 := rfl
@[simp] theorem emit_byte3 (v : Byte) : (emit v s).byte3 = s.byte3 := rfl
@[simp] theorem emit_dist (v : Byte) : (emit v s).dist = s.dist := rfl
@[simp] theorem emit_len (v : Byte) : (emit v s).len = s.len := rfl
@[simp] theorem emit_gap (v : Byte) : (emit v s).gap = s.gap := rfl
@[simp] theorem emit_pos (v : Byte) : (emit v s).pos = s.pos := rfl
@[simp] theorem emit_inMem (v : Byte) : (emit v s).inMem = s.inMem := rfl
@[simp] theorem emit_outMem (v : Byte) : (emit v s).outMem = Memory.write .output s.outMem s.ooff v := rfl
@[simp] theorem emit_histMem (v : Byte) : (emit v s).histMem = Memory.write .history s.histMem (histSlot s.ooff) v := rfl
@[simp] theorem emit_histFill (v : Byte) : (emit v s).histFill = s.histFill := rfl
@[simp] theorem emit_stage (v : Byte) : (emit v s).stage = s.stage := rfl
@[simp] theorem emit_hostQueue (v : Byte) : (emit v s).hostQueue = s.hostQueue := rfl
@[simp] theorem emit_readData (v : Byte) : (emit v s).readData = s.readData := rfl
@[simp] theorem emit_draws (v : Byte) : (emit v s).draws = s.draws := rfl

/-! ### The end of an iteration -/

@[simp] theorem endIteration_inPresent : (endIteration s).inPresent = s.inPresent := rfl
@[simp] theorem endIteration_phase : (endIteration s).phase = s.phase := rfl
@[simp] theorem endIteration_status : (endIteration s).status = s.status := rfl
@[simp] theorem endIteration_inSize : (endIteration s).inSize = s.inSize := rfl
@[simp] theorem endIteration_dlen : (endIteration s).dlen = s.dlen := rfl
@[simp] theorem endIteration_n : (endIteration s).n = s.n := rfl
@[simp] theorem endIteration_present : (endIteration s).present = s.present := rfl
@[simp] theorem endIteration_psize : (endIteration s).psize = s.psize := rfl
@[simp] theorem endIteration_ioff : (endIteration s).ioff = s.ioff := rfl
@[simp] theorem endIteration_ooff : (endIteration s).ooff = s.ooff := rfl
@[simp] theorem endIteration_mask : (endIteration s).mask = s.mask := rfl
@[simp] theorem endIteration_header : (endIteration s).header = s.header := rfl
@[simp] theorem endIteration_byte1 : (endIteration s).byte1 = s.byte1 := rfl
@[simp] theorem endIteration_byte2 : (endIteration s).byte2 = s.byte2 := rfl
@[simp] theorem endIteration_byte3 : (endIteration s).byte3 = s.byte3 := rfl
@[simp] theorem endIteration_dist : (endIteration s).dist = s.dist := rfl
@[simp] theorem endIteration_len : (endIteration s).len = s.len := rfl
@[simp] theorem endIteration_gap : (endIteration s).gap = s.gap := rfl
@[simp] theorem endIteration_pos : (endIteration s).pos = s.pos := rfl
@[simp] theorem endIteration_inMem : (endIteration s).inMem = s.inMem := rfl
@[simp] theorem endIteration_outMem : (endIteration s).outMem = s.outMem := rfl
@[simp] theorem endIteration_histMem : (endIteration s).histMem = s.histMem := rfl
@[simp] theorem endIteration_histFill : (endIteration s).histFill = s.histFill := rfl
@[simp] theorem endIteration_stage : (endIteration s).stage = .loop := rfl
@[simp] theorem endIteration_hostQueue : (endIteration s).hostQueue = s.hostQueue := rfl
@[simp] theorem endIteration_readData : (endIteration s).readData = s.readData := rfl
@[simp] theorem endIteration_draws : (endIteration s).draws = s.draws := rfl

/-! ### The control window -/

@[simp] theorem loadWindow_inPresent (c : Byte) : (loadWindow c s).inPresent = s.inPresent := rfl
@[simp] theorem loadWindow_phase (c : Byte) : (loadWindow c s).phase = s.phase := rfl
@[simp] theorem loadWindow_status (c : Byte) : (loadWindow c s).status = s.status := rfl
@[simp] theorem loadWindow_inSize (c : Byte) : (loadWindow c s).inSize = s.inSize := rfl
@[simp] theorem loadWindow_dlen (c : Byte) : (loadWindow c s).dlen = s.dlen := rfl
@[simp] theorem loadWindow_n (c : Byte) : (loadWindow c s).n = s.n := rfl
@[simp] theorem loadWindow_present (c : Byte) : (loadWindow c s).present = s.present := rfl
@[simp] theorem loadWindow_psize (c : Byte) : (loadWindow c s).psize = s.psize := rfl
@[simp] theorem loadWindow_ioff (c : Byte) : (loadWindow c s).ioff = s.ioff := rfl
@[simp] theorem loadWindow_ooff (c : Byte) : (loadWindow c s).ooff = s.ooff := rfl
@[simp] theorem loadWindow_mask (c : Byte) : (loadWindow c s).mask = Config.maskReload := rfl
@[simp] theorem loadWindow_header (c : Byte) : (loadWindow c s).header = c := rfl
@[simp] theorem loadWindow_byte1 (c : Byte) : (loadWindow c s).byte1 = s.byte1 := rfl
@[simp] theorem loadWindow_byte2 (c : Byte) : (loadWindow c s).byte2 = s.byte2 := rfl
@[simp] theorem loadWindow_byte3 (c : Byte) : (loadWindow c s).byte3 = s.byte3 := rfl
@[simp] theorem loadWindow_dist (c : Byte) : (loadWindow c s).dist = s.dist := rfl
@[simp] theorem loadWindow_len (c : Byte) : (loadWindow c s).len = s.len := rfl
@[simp] theorem loadWindow_gap (c : Byte) : (loadWindow c s).gap = s.gap := rfl
@[simp] theorem loadWindow_pos (c : Byte) : (loadWindow c s).pos = s.pos := rfl
@[simp] theorem loadWindow_inMem (c : Byte) : (loadWindow c s).inMem = s.inMem := rfl
@[simp] theorem loadWindow_outMem (c : Byte) : (loadWindow c s).outMem = s.outMem := rfl
@[simp] theorem loadWindow_histMem (c : Byte) : (loadWindow c s).histMem = s.histMem := rfl
@[simp] theorem loadWindow_histFill (c : Byte) : (loadWindow c s).histFill = s.histFill := rfl
@[simp] theorem loadWindow_stage (c : Byte) : (loadWindow c s).stage = .token := rfl
@[simp] theorem loadWindow_hostQueue (c : Byte) : (loadWindow c s).hostQueue = s.hostQueue := rfl
@[simp] theorem loadWindow_readData (c : Byte) : (loadWindow c s).readData = s.readData := rfl
@[simp] theorem loadWindow_draws (c : Byte) : (loadWindow c s).draws = s.draws := rfl

/-! ### `BYTE1` -/

@[simp] theorem setByte1_inPresent (b : Byte) : (setByte1 b s).inPresent = s.inPresent := rfl
@[simp] theorem setByte1_phase (b : Byte) : (setByte1 b s).phase = s.phase := rfl
@[simp] theorem setByte1_status (b : Byte) : (setByte1 b s).status = s.status := rfl
@[simp] theorem setByte1_inSize (b : Byte) : (setByte1 b s).inSize = s.inSize := rfl
@[simp] theorem setByte1_dlen (b : Byte) : (setByte1 b s).dlen = s.dlen := rfl
@[simp] theorem setByte1_n (b : Byte) : (setByte1 b s).n = s.n := rfl
@[simp] theorem setByte1_present (b : Byte) : (setByte1 b s).present = s.present := rfl
@[simp] theorem setByte1_psize (b : Byte) : (setByte1 b s).psize = s.psize := rfl
@[simp] theorem setByte1_ioff (b : Byte) : (setByte1 b s).ioff = s.ioff := rfl
@[simp] theorem setByte1_ooff (b : Byte) : (setByte1 b s).ooff = s.ooff := rfl
@[simp] theorem setByte1_mask (b : Byte) : (setByte1 b s).mask = s.mask := rfl
@[simp] theorem setByte1_header (b : Byte) : (setByte1 b s).header = s.header := rfl
@[simp] theorem setByte1_byte1 (b : Byte) : (setByte1 b s).byte1 = b := rfl
@[simp] theorem setByte1_byte2 (b : Byte) : (setByte1 b s).byte2 = s.byte2 := rfl
@[simp] theorem setByte1_byte3 (b : Byte) : (setByte1 b s).byte3 = s.byte3 := rfl
@[simp] theorem setByte1_dist (b : Byte) : (setByte1 b s).dist = s.dist := rfl
@[simp] theorem setByte1_len (b : Byte) : (setByte1 b s).len = s.len := rfl
@[simp] theorem setByte1_gap (b : Byte) : (setByte1 b s).gap = s.gap := rfl
@[simp] theorem setByte1_pos (b : Byte) : (setByte1 b s).pos = s.pos := rfl
@[simp] theorem setByte1_inMem (b : Byte) : (setByte1 b s).inMem = s.inMem := rfl
@[simp] theorem setByte1_outMem (b : Byte) : (setByte1 b s).outMem = s.outMem := rfl
@[simp] theorem setByte1_histMem (b : Byte) : (setByte1 b s).histMem = s.histMem := rfl
@[simp] theorem setByte1_histFill (b : Byte) : (setByte1 b s).histFill = s.histFill := rfl
@[simp] theorem setByte1_stage (b : Byte) : (setByte1 b s).stage = s.stage := rfl
@[simp] theorem setByte1_hostQueue (b : Byte) : (setByte1 b s).hostQueue = s.hostQueue := rfl
@[simp] theorem setByte1_readData (b : Byte) : (setByte1 b s).readData = s.readData := rfl
@[simp] theorem setByte1_draws (b : Byte) : (setByte1 b s).draws = s.draws := rfl

/-! ### `BYTE2`, `DIST`, `GAP` -/

@[simp] theorem setByte2_inPresent (b1 b2 : Byte) : (setByte2 b1 b2 s).inPresent = s.inPresent := rfl
@[simp] theorem setByte2_phase (b1 b2 : Byte) : (setByte2 b1 b2 s).phase = s.phase := rfl
@[simp] theorem setByte2_status (b1 b2 : Byte) : (setByte2 b1 b2 s).status = s.status := rfl
@[simp] theorem setByte2_inSize (b1 b2 : Byte) : (setByte2 b1 b2 s).inSize = s.inSize := rfl
@[simp] theorem setByte2_dlen (b1 b2 : Byte) : (setByte2 b1 b2 s).dlen = s.dlen := rfl
@[simp] theorem setByte2_n (b1 b2 : Byte) : (setByte2 b1 b2 s).n = s.n := rfl
@[simp] theorem setByte2_present (b1 b2 : Byte) : (setByte2 b1 b2 s).present = s.present := rfl
@[simp] theorem setByte2_psize (b1 b2 : Byte) : (setByte2 b1 b2 s).psize = s.psize := rfl
@[simp] theorem setByte2_ioff (b1 b2 : Byte) : (setByte2 b1 b2 s).ioff = s.ioff := rfl
@[simp] theorem setByte2_ooff (b1 b2 : Byte) : (setByte2 b1 b2 s).ooff = s.ooff := rfl
@[simp] theorem setByte2_mask (b1 b2 : Byte) : (setByte2 b1 b2 s).mask = s.mask := rfl
@[simp] theorem setByte2_header (b1 b2 : Byte) : (setByte2 b1 b2 s).header = s.header := rfl
@[simp] theorem setByte2_byte1 (b1 b2 : Byte) : (setByte2 b1 b2 s).byte1 = s.byte1 := rfl
@[simp] theorem setByte2_byte2 (b1 b2 : Byte) : (setByte2 b1 b2 s).byte2 = b2 := rfl
@[simp] theorem setByte2_byte3 (b1 b2 : Byte) : (setByte2 b1 b2 s).byte3 = s.byte3 := rfl
@[simp] theorem setByte2_dist (b1 b2 : Byte) : (setByte2 b1 b2 s).dist = distField b1 b2 := rfl
@[simp] theorem setByte2_len (b1 b2 : Byte) : (setByte2 b1 b2 s).len = s.len := rfl
@[simp] theorem setByte2_gap (b1 b2 : Byte) : (setByte2 b1 b2 s).gap = gapOf (distField b1 b2) := rfl
@[simp] theorem setByte2_pos (b1 b2 : Byte) : (setByte2 b1 b2 s).pos = s.pos := rfl
@[simp] theorem setByte2_inMem (b1 b2 : Byte) : (setByte2 b1 b2 s).inMem = s.inMem := rfl
@[simp] theorem setByte2_outMem (b1 b2 : Byte) : (setByte2 b1 b2 s).outMem = s.outMem := rfl
@[simp] theorem setByte2_histMem (b1 b2 : Byte) : (setByte2 b1 b2 s).histMem = s.histMem := rfl
@[simp] theorem setByte2_histFill (b1 b2 : Byte) : (setByte2 b1 b2 s).histFill = s.histFill := rfl
@[simp] theorem setByte2_stage (b1 b2 : Byte) : (setByte2 b1 b2 s).stage = s.stage := rfl
@[simp] theorem setByte2_hostQueue (b1 b2 : Byte) : (setByte2 b1 b2 s).hostQueue = s.hostQueue := rfl
@[simp] theorem setByte2_readData (b1 b2 : Byte) : (setByte2 b1 b2 s).readData = s.readData := rfl
@[simp] theorem setByte2_draws (b1 b2 : Byte) : (setByte2 b1 b2 s).draws = s.draws := rfl

/-! ### `BYTE3` -/

@[simp] theorem setByte3_inPresent (b : Byte) : (setByte3 b s).inPresent = s.inPresent := rfl
@[simp] theorem setByte3_phase (b : Byte) : (setByte3 b s).phase = s.phase := rfl
@[simp] theorem setByte3_status (b : Byte) : (setByte3 b s).status = s.status := rfl
@[simp] theorem setByte3_inSize (b : Byte) : (setByte3 b s).inSize = s.inSize := rfl
@[simp] theorem setByte3_dlen (b : Byte) : (setByte3 b s).dlen = s.dlen := rfl
@[simp] theorem setByte3_n (b : Byte) : (setByte3 b s).n = s.n := rfl
@[simp] theorem setByte3_present (b : Byte) : (setByte3 b s).present = s.present := rfl
@[simp] theorem setByte3_psize (b : Byte) : (setByte3 b s).psize = s.psize := rfl
@[simp] theorem setByte3_ioff (b : Byte) : (setByte3 b s).ioff = s.ioff := rfl
@[simp] theorem setByte3_ooff (b : Byte) : (setByte3 b s).ooff = s.ooff := rfl
@[simp] theorem setByte3_mask (b : Byte) : (setByte3 b s).mask = s.mask := rfl
@[simp] theorem setByte3_header (b : Byte) : (setByte3 b s).header = s.header := rfl
@[simp] theorem setByte3_byte1 (b : Byte) : (setByte3 b s).byte1 = s.byte1 := rfl
@[simp] theorem setByte3_byte2 (b : Byte) : (setByte3 b s).byte2 = s.byte2 := rfl
@[simp] theorem setByte3_byte3 (b : Byte) : (setByte3 b s).byte3 = b := rfl
@[simp] theorem setByte3_dist (b : Byte) : (setByte3 b s).dist = s.dist := rfl
@[simp] theorem setByte3_len (b : Byte) : (setByte3 b s).len = s.len := rfl
@[simp] theorem setByte3_gap (b : Byte) : (setByte3 b s).gap = s.gap := rfl
@[simp] theorem setByte3_pos (b : Byte) : (setByte3 b s).pos = s.pos := rfl
@[simp] theorem setByte3_inMem (b : Byte) : (setByte3 b s).inMem = s.inMem := rfl
@[simp] theorem setByte3_outMem (b : Byte) : (setByte3 b s).outMem = s.outMem := rfl
@[simp] theorem setByte3_histMem (b : Byte) : (setByte3 b s).histMem = s.histMem := rfl
@[simp] theorem setByte3_histFill (b : Byte) : (setByte3 b s).histFill = s.histFill := rfl
@[simp] theorem setByte3_stage (b : Byte) : (setByte3 b s).stage = s.stage := rfl
@[simp] theorem setByte3_hostQueue (b : Byte) : (setByte3 b s).hostQueue = s.hostQueue := rfl
@[simp] theorem setByte3_readData (b : Byte) : (setByte3 b s).readData = s.readData := rfl
@[simp] theorem setByte3_draws (b : Byte) : (setByte3 b s).draws = s.draws := rfl

/-! ### One byte of a copy -/

@[simp] theorem copyByte_inPresent : (copyByte s).inPresent = s.inPresent := rfl
@[simp] theorem copyByte_phase : (copyByte s).phase = s.phase := rfl
@[simp] theorem copyByte_status : (copyByte s).status = s.status := rfl
@[simp] theorem copyByte_inSize : (copyByte s).inSize = s.inSize := rfl
@[simp] theorem copyByte_dlen : (copyByte s).dlen = s.dlen := rfl
@[simp] theorem copyByte_n : (copyByte s).n = s.n := rfl
@[simp] theorem copyByte_present : (copyByte s).present = s.present := rfl
@[simp] theorem copyByte_psize : (copyByte s).psize = s.psize := rfl
@[simp] theorem copyByte_ioff : (copyByte s).ioff = s.ioff := rfl
@[simp] theorem copyByte_ooff : (copyByte s).ooff = s.ooff + 1 := rfl
@[simp] theorem copyByte_mask : (copyByte s).mask = s.mask := rfl
@[simp] theorem copyByte_header : (copyByte s).header = s.header := rfl
@[simp] theorem copyByte_byte1 : (copyByte s).byte1 = s.byte1 := rfl
@[simp] theorem copyByte_byte2 : (copyByte s).byte2 = s.byte2 := rfl
@[simp] theorem copyByte_byte3 : (copyByte s).byte3 = s.byte3 := rfl
@[simp] theorem copyByte_dist : (copyByte s).dist = s.dist := rfl
@[simp] theorem copyByte_len : (copyByte s).len = s.len := rfl
@[simp] theorem copyByte_gap : (copyByte s).gap = s.gap := rfl
@[simp] theorem copyByte_pos : (copyByte s).pos = s.pos + 1 := rfl
@[simp] theorem copyByte_inMem : (copyByte s).inMem = s.inMem := rfl
@[simp] theorem copyByte_outMem : (copyByte s).outMem = Memory.write .output s.outMem s.ooff (s.outByte s.pos) := rfl
@[simp] theorem copyByte_histMem : (copyByte s).histMem = Memory.write .history s.histMem (histSlot s.ooff) (s.outByte s.pos) := rfl
@[simp] theorem copyByte_histFill : (copyByte s).histFill = s.histFill := rfl
@[simp] theorem copyByte_stage : (copyByte s).stage = s.stage := rfl
@[simp] theorem copyByte_hostQueue : (copyByte s).hostQueue = s.hostQueue := rfl
@[simp] theorem copyByte_readData : (copyByte s).readData = s.readData := rfl
@[simp] theorem copyByte_draws : (copyByte s).draws = s.draws := rfl

/-! ### Entry to Phase 2: the fields whose value the spec gives, and those it leaves alone -/

@[simp] theorem enterExpand_inPresent : (enterExpand s).inPresent = s.inPresent := rfl
@[simp] theorem enterExpand_phase : (enterExpand s).phase = .expand := rfl
@[simp] theorem enterExpand_status : (enterExpand s).status = s.status := rfl
@[simp] theorem enterExpand_inSize : (enterExpand s).inSize = s.inSize := rfl
@[simp] theorem enterExpand_dlen : (enterExpand s).dlen = s.dlen := rfl
@[simp] theorem enterExpand_n : (enterExpand s).n = s.n := rfl
@[simp] theorem enterExpand_present : (enterExpand s).present = s.present := rfl
@[simp] theorem enterExpand_psize : (enterExpand s).psize = s.psize := rfl
@[simp] theorem enterExpand_ioff : (enterExpand s).ioff = 0 := rfl
@[simp] theorem enterExpand_ooff : (enterExpand s).ooff = 0 := rfl
@[simp] theorem enterExpand_mask : (enterExpand s).mask = 0#16 := rfl
@[simp] theorem enterExpand_inMem : (enterExpand s).inMem = s.inMem := rfl
@[simp] theorem enterExpand_outMem : (enterExpand s).outMem = [] := rfl
@[simp] theorem enterExpand_histMem : (enterExpand s).histMem = [] := rfl
@[simp] theorem enterExpand_stage : (enterExpand s).stage = .loop := rfl
@[simp] theorem enterExpand_hostQueue : (enterExpand s).hostQueue = s.hostQueue := rfl
@[simp] theorem enterExpand_readData : (enterExpand s).readData = s.readData := rfl

end Sys2Proof.Machine
end

