-- ==== Sys2Proof/Laws/Ops.lean ====
section
/-! SUPPORT. For each shared operation, one lemma that says everything it can do. -/

namespace Sys2Proof.Machine

/-! ### Operand arithmetic -/

theorem shortLen_eq (n : Nibble) : shortLen n = n.toNat + 2 := rfl

theorem longLen_eq (m : Byte) : longLen m = m.toNat + 18 := rfl

theorem gapOf_eq (dist : Dist) : gapOf dist = dist.toNat + 1 := rfl

/-- A short length is at most 17, a long one 18 to 273 (R68, R118). -/
theorem shortLen_le (n : Nibble) : 2 ≤ shortLen n ∧ shortLen n ≤ 17 := by
  have := n.isLt
  rw [shortLen_eq]
  omega

theorem longLen_le (m : Byte) : 18 ≤ longLen m ∧ longLen m ≤ 273 := by
  have := m.isLt
  rw [longLen_eq]
  omega

/-! ### The checked payload read -/

/-- A payload read succeeds below `PSIZE` and moves the counter by one (R43). -/
theorem payRead_ok {s : State} (h : s.ioff < s.psize) : payRead s = .ok (advance s) := by
  simp [payRead, Nat.not_le.mpr h]

/-- A payload read at or past `PSIZE` ends the run and leaves the counter alone (R43, R126). -/
theorem payRead_error {s : State} (h : s.psize ≤ s.ioff) : payRead s = .error (raise .payloadOverrun s) := by
  simp [payRead, h]

/-! ### The outcome of a meaning -/

theorem settle_eq_next {r : Except State State} {t : State} (h : settle r = .next t) : r = .ok t ∨ r = .error t := by
  cases r with
  | ok u => simp only [settle, Host.Outcome.next.injEq] at h; exact .inl (by rw [h])
  | error u => simp only [settle, Host.Outcome.next.injEq] at h; exact .inr (by rw [h])

/-! ### The head of a back-reference -/

/-- A distance within the output gives the source position (R110). -/
theorem position_ok {s : State} (h : s.gap ≤ s.ooff) : position s = .ok { s with pos := s.ooff - s.gap } := by
  simp [position, Nat.not_lt.mpr h]

/-- A distance beyond the start of the output ends the run (R110). -/
theorem position_error {s : State} (h : s.ooff < s.gap) : position s = .error (raise .negativePosition s) := by
  simp [position, h]

/-- The state after the head of a back-reference: two bytes taken, their registers set, `POS` formed (R105, R106,
R110). -/
def headDone (b1 b2 : Byte) (s : State) : State :=
  { s with
    ioff := s.ioff + 2, byte1 := b1, byte2 := b2, dist := distField b1 b2, gap := gapOf (distField b1 b2)
    pos := s.ooff - gapOf (distField b1 b2) }

theorem refHead_ok {b1 b2 : Byte} {s : State} (hp : s.ioff + 2 ≤ s.psize) (hg : gapOf (distField b1 b2) ≤ s.ooff) :
    refHead b1 b2 s = .ok (headDone b1 b2 s) := by
  have h1 : s.ioff < s.psize := by omega
  have h2 : (setByte1 b1 (advance s)).ioff < (setByte1 b1 (advance s)).psize := by
    simp only [setByte1_ioff, setByte1_psize, advance_ioff, advance_psize]; omega
  have h3 : (setByte2 b1 b2 (advance (setByte1 b1 (advance s)))).gap ≤
      (setByte2 b1 b2 (advance (setByte1 b1 (advance s)))).ooff := hg
  simp only [refHead, bind, Except.bind, payRead_ok h1, payRead_ok h2, position_ok h3]
  rfl

/-- What an ended run leaves alone when a back-reference raised: everything but `IOFF`, the operand registers, the
status and the phase. -/
structure RefRaised (s t : State) : Prop where
  phase : t.phase = .done
  status : t.status = .malformedStream
  host : SameHostSide s t
  bounds : SameBounds s t
  window : SameWindow s t
  ooff : t.ooff = s.ooff
  out : t.outMem = s.outMem
  hist : t.histMem = s.histMem
  fill : t.histFill = s.histFill
  stage : t.stage = s.stage
  least : s.ioff ≤ t.ioff
  most : t.ioff ≤ s.ioff + 3
  within : s.ioff ≤ s.psize → t.ioff ≤ t.psize

theorem refHead_error {b1 b2 : Byte} {s : State} (h : s.psize < s.ioff + 2 ∨ s.ooff < gapOf (distField b1 b2)) :
    ∃ t, refHead b1 b2 s = .error t ∧ RefRaised s t ∧ t.byte3 = s.byte3 := by
  by_cases h1 : s.psize ≤ s.ioff
  · refine ⟨raise .payloadOverrun s, by simp [refHead, bind, Except.bind, payRead_error h1], ?_, rfl⟩
    constructor <;> simp [Reason.signal, SameHostSide, SameBounds, SameWindow]
  · have h1' : s.ioff < s.psize := by omega
    by_cases h2 : s.psize ≤ s.ioff + 1
    · have h2' : (setByte1 b1 (advance s)).psize ≤ (setByte1 b1 (advance s)).ioff := by simpa using h2
      refine ⟨raise .payloadOverrun (setByte1 b1 (advance s)),
        by simp only [refHead, bind, Except.bind, payRead_ok h1', payRead_error h2'], ?_, rfl⟩
      constructor <;> simp [Reason.signal, SameHostSide, SameBounds, SameWindow] <;> omega
    · have h2' : (setByte1 b1 (advance s)).ioff < (setByte1 b1 (advance s)).psize := by
        simp only [setByte1_ioff, setByte1_psize, advance_ioff, advance_psize]; omega
      have hg : s.ooff < gapOf (distField b1 b2) := by omega
      refine ⟨raise .negativePosition (setByte2 b1 b2 (advance (setByte1 b1 (advance s)))), ?_, ?_, rfl⟩
      · have h3 : (setByte2 b1 b2 (advance (setByte1 b1 (advance s)))).ooff <
            (setByte2 b1 b2 (advance (setByte1 b1 (advance s)))).gap := hg
        simp only [refHead, bind, Except.bind, payRead_ok h1', payRead_ok h2', position_error h3]
      · constructor <;> simp [Reason.signal, SameHostSide, SameBounds, SameWindow] <;> omega

/-! ### The copy -/

/-- A copy changes OUT, HIST and the two cursors, which grow by its length, and nothing else (R112). -/
theorem copyBytes_eq (k : Nat) (s : State) :
    copyBytes k s = { s with
      outMem := (copyBytes k s).outMem, histMem := (copyBytes k s).histMem, ooff := s.ooff + k, pos := s.pos + k } := by
  induction k generalizing s with
  | zero => rfl
  | succ k ih =>
    rw [copyBytes, ih (copyByte s)]
    simp only [copyByte_ooff, copyByte_pos, Nat.add_assoc, Nat.add_comm 1 k]
    rfl

@[simp] theorem copyBytes_ooff (k : Nat) (s : State) : (copyBytes k s).ooff = s.ooff + k := by rw [copyBytes_eq]

@[simp] theorem copyBytes_pos (k : Nat) (s : State) : (copyBytes k s).pos = s.pos + k := by rw [copyBytes_eq]

@[simp] theorem copyBytes_inPresent (k : Nat) (s : State) : (copyBytes k s).inPresent = s.inPresent := by rw [copyBytes_eq]
@[simp] theorem copyBytes_phase (k : Nat) (s : State) : (copyBytes k s).phase = s.phase := by rw [copyBytes_eq]
@[simp] theorem copyBytes_status (k : Nat) (s : State) : (copyBytes k s).status = s.status := by rw [copyBytes_eq]
@[simp] theorem copyBytes_inSize (k : Nat) (s : State) : (copyBytes k s).inSize = s.inSize := by rw [copyBytes_eq]
@[simp] theorem copyBytes_dlen (k : Nat) (s : State) : (copyBytes k s).dlen = s.dlen := by rw [copyBytes_eq]
@[simp] theorem copyBytes_n (k : Nat) (s : State) : (copyBytes k s).n = s.n := by rw [copyBytes_eq]
@[simp] theorem copyBytes_present (k : Nat) (s : State) : (copyBytes k s).present = s.present := by rw [copyBytes_eq]
@[simp] theorem copyBytes_psize (k : Nat) (s : State) : (copyBytes k s).psize = s.psize := by rw [copyBytes_eq]
@[simp] theorem copyBytes_ioff (k : Nat) (s : State) : (copyBytes k s).ioff = s.ioff := by rw [copyBytes_eq]
@[simp] theorem copyBytes_mask (k : Nat) (s : State) : (copyBytes k s).mask = s.mask := by rw [copyBytes_eq]
@[simp] theorem copyBytes_header (k : Nat) (s : State) : (copyBytes k s).header = s.header := by rw [copyBytes_eq]
@[simp] theorem copyBytes_byte1 (k : Nat) (s : State) : (copyBytes k s).byte1 = s.byte1 := by rw [copyBytes_eq]
@[simp] theorem copyBytes_byte2 (k : Nat) (s : State) : (copyBytes k s).byte2 = s.byte2 := by rw [copyBytes_eq]
@[simp] theorem copyBytes_byte3 (k : Nat) (s : State) : (copyBytes k s).byte3 = s.byte3 := by rw [copyBytes_eq]
@[simp] theorem copyBytes_dist (k : Nat) (s : State) : (copyBytes k s).dist = s.dist := by rw [copyBytes_eq]
@[simp] theorem copyBytes_len (k : Nat) (s : State) : (copyBytes k s).len = s.len := by rw [copyBytes_eq]
@[simp] theorem copyBytes_gap (k : Nat) (s : State) : (copyBytes k s).gap = s.gap := by rw [copyBytes_eq]
@[simp] theorem copyBytes_inMem (k : Nat) (s : State) : (copyBytes k s).inMem = s.inMem := by rw [copyBytes_eq]
@[simp] theorem copyBytes_stage (k : Nat) (s : State) : (copyBytes k s).stage = s.stage := by rw [copyBytes_eq]
@[simp] theorem copyBytes_hostQueue (k : Nat) (s : State) : (copyBytes k s).hostQueue = s.hostQueue := by rw [copyBytes_eq]
@[simp] theorem copyBytes_readData (k : Nat) (s : State) : (copyBytes k s).readData = s.readData := by rw [copyBytes_eq]
@[simp] theorem copyBytes_draws (k : Nat) (s : State) : (copyBytes k s).draws = s.draws := by rw [copyBytes_eq]
@[simp] theorem copyBytes_histFill (k : Nat) (s : State) : (copyBytes k s).histFill = s.histFill := by rw [copyBytes_eq]

/-- A copy keeps the canonical forms. -/
theorem copyBytes_wf (k : Nat) {s : State} (ho : Memory.wf .output s.outMem = true)
    (hh : Memory.wf .history s.histMem = true) :
    Memory.wf .output (copyBytes k s).outMem = true ∧ Memory.wf .history (copyBytes k s).histMem = true := by
  induction k generalizing s with
  | zero => exact ⟨ho, hh⟩
  | succ k ih => exact ih (s := copyByte s) (wf_write ho) (wf_write hh)

/-- The byte just written to OUT is the byte read back. -/
theorem emit_outByte_same {v : Byte} {s : State} (ho : Memory.wf .output s.outMem = true) :
    (emit v s).outByte s.ooff = v := by
  simp [State.outByte, read_write_same ho]

/-- Writing one output byte leaves every other index of OUT alone. -/
theorem emit_outByte_other {v : Byte} {s : State} {a : Nat} (ho : Memory.wf .output s.outMem = true)
    (h : a ≠ s.ooff) : (emit v s).outByte a = s.outByte a := by
  simp [State.outByte, read_write_other ho h]

/-- The mirrored byte in HIST. -/
theorem emit_histByte_same {v : Byte} {s : State} (hh : Memory.wf .history s.histMem = true) :
    (emit v s).histByte (histSlot s.ooff) = v := by
  simp [State.histByte, read_write_same hh]

/-- Writing one output byte leaves every other slot of HIST alone. -/
theorem emit_histByte_other {v : Byte} {s : State} {j : Nat} (hh : Memory.wf .history s.histMem = true)
    (h : j ≠ histSlot s.ooff) : (emit v s).histByte j = s.histByte j := by
  simp [State.histByte, read_write_other hh h]

theorem copyByte_outByte (s : State) (a : Nat) : (copyByte s).outByte a = (emit (s.outByte s.pos) s).outByte a := rfl

theorem copyByte_histByte (s : State) (j : Nat) : (copyByte s).histByte j = (emit (s.outByte s.pos) s).histByte j := rfl

/-- A copy leaves every byte of OUT outside its destination alone (R50, R112). -/
theorem copyBytes_outByte_other (k : Nat) {s : State} {a : Nat} (ho : Memory.wf .output s.outMem = true)
    (h : a < s.ooff ∨ s.ooff + k ≤ a) : (copyBytes k s).outByte a = s.outByte a := by
  induction k generalizing s with
  | zero => rfl
  | succ k ih =>
    rw [copyBytes, ih (s := copyByte s) (wf_write ho) (by rw [copyByte_ooff]; omega), copyByte_outByte,
      emit_outByte_other ho (by omega)]

/-- A copy leaves every slot of HIST alone that mirrors no byte of its destination (R44). -/
theorem copyBytes_histByte_other (k : Nat) {s : State} {j : Nat} (hh : Memory.wf .history s.histMem = true)
    (h : ∀ i, i < k → j ≠ histSlot (s.ooff + i)) : (copyBytes k s).histByte j = s.histByte j := by
  induction k generalizing s with
  | zero => rfl
  | succ k ih =>
    rw [copyBytes, ih (s := copyByte s) (wf_write hh), copyByte_histByte, emit_histByte_other hh (h 0 (by omega))]
    intro i hi
    rw [copyByte_ooff, Nat.add_assoc, Nat.add_comm 1 i]
    exact h (i + 1) (by omega)

/-! ### Room check and copy -/

theorem refCopy_ok {len : Nat} {s : State} (h : s.ooff + len ≤ s.dlen.toNat) :
    refCopy len s = .ok (endIteration (copyBytes len { s with len := len })) := by
  simp [refCopy, Nat.not_lt.mpr h]

theorem refCopy_error {len : Nat} {s : State} (h : s.dlen.toNat < s.ooff + len) :
    refCopy len s = .error (raise .outputOverrun { s with len := len }) := by
  simp [refCopy, h]

/-! ### The two back-references -/

/-- The state after a short back-reference that raises nothing (R116). -/
def shortDone (n : Nibble) (dist : Dist) (s : State) : State :=
  endIteration (copyBytes (shortLen n)
    { headDone (firstByte n dist) (secondByte dist) s with len := shortLen n })

/-- The state after a long back-reference that raises nothing (R117). -/
def longDone (dist : Dist) (m : Byte) (s : State) : State :=
  endIteration (copyBytes (longLen m)
    { headDone (firstByte 0#4 dist) (secondByte dist) s with
      ioff := s.ioff + 3, byte3 := m, len := longLen m })

/-- The distance field of the two bytes a back-reference is encoded with (R67). -/
theorem distField_encoded (n : Nibble) (dist : Dist) : distField (firstByte n dist) (secondByte dist) = dist := by
  unfold distField firstByte secondByte lowNibble
  apply BitVec.eq_of_getLsbD_eq
  intro i hi
  simp only [BitVec.getLsbD_append, BitVec.getLsbD_extractLsb']
  by_cases h : i < 8
  · simp [h]
  · have : i - 8 < 4 := by omega
    simp [h, this]
    congr 1
    omega

/-! The registers after a completed back-reference. (`copyBytes` on a length of the form `n + 18` unfolds when terms are
compared by evaluation: cite these instead.) -/

@[simp] theorem shortDone_inPresent (n : Nibble) (dist : Dist) (s : State) : (shortDone n dist s).inPresent = s.inPresent := by simp [shortDone, headDone, distField_encoded]
@[simp] theorem shortDone_phase (n : Nibble) (dist : Dist) (s : State) : (shortDone n dist s).phase = s.phase := by simp [shortDone, headDone, distField_encoded]
@[simp] theorem shortDone_status (n : Nibble) (dist : Dist) (s : State) : (shortDone n dist s).status = s.status := by simp [shortDone, headDone, distField_encoded]
@[simp] theorem shortDone_inSize (n : Nibble) (dist : Dist) (s : State) : (shortDone n dist s).inSize = s.inSize := by simp [shortDone, headDone, distField_encoded]
@[simp] theorem shortDone_dlen (n : Nibble) (dist : Dist) (s : State) : (shortDone n dist s).dlen = s.dlen := by simp [shortDone, headDone, distField_encoded]
@[simp] theorem shortDone_n (n : Nibble) (dist : Dist) (s : State) : (shortDone n dist s).n = s.n := by simp [shortDone, headDone, distField_encoded]
@[simp] theorem shortDone_present (n : Nibble) (dist : Dist) (s : State) : (shortDone n dist s).present = s.present := by simp [shortDone, headDone, distField_encoded]
@[simp] theorem shortDone_psize (n : Nibble) (dist : Dist) (s : State) : (shortDone n dist s).psize = s.psize := by simp [shortDone, headDone, distField_encoded]
@[simp] theorem shortDone_ioff (n : Nibble) (dist : Dist) (s : State) : (shortDone n dist s).ioff = s.ioff + 2 := by simp [shortDone, headDone, distField_encoded]
@[simp] theorem shortDone_ooff (n : Nibble) (dist : Dist) (s : State) : (shortDone n dist s).ooff = s.ooff + shortLen n := by simp [shortDone, headDone, distField_encoded]
@[simp] theorem shortDone_mask (n : Nibble) (dist : Dist) (s : State) : (shortDone n dist s).mask = s.mask := by simp [shortDone, headDone, distField_encoded]
@[simp] theorem shortDone_header (n : Nibble) (dist : Dist) (s : State) : (shortDone n dist s).header = s.header := by simp [shortDone, headDone, distField_encoded]
@[simp] theorem shortDone_byte1 (n : Nibble) (dist : Dist) (s : State) : (shortDone n dist s).byte1 = firstByte n dist := by simp [shortDone, headDone, distField_encoded]
@[simp] theorem shortDone_byte2 (n : Nibble) (dist : Dist) (s : State) : (shortDone n dist s).byte2 = secondByte dist := by simp [shortDone, headDone, distField_encoded]
@[simp] theorem shortDone_byte3 (n : Nibble) (dist : Dist) (s : State) : (shortDone n dist s).byte3 = s.byte3 := by simp [shortDone, headDone, distField_encoded]
@[simp] theorem shortDone_dist (n : Nibble) (dist : Dist) (s : State) : (shortDone n dist s).dist = dist := by simp [shortDone, headDone, distField_encoded]
@[simp] theorem shortDone_len (n : Nibble) (dist : Dist) (s : State) : (shortDone n dist s).len = shortLen n := by simp [shortDone, headDone, distField_encoded]
@[simp] theorem shortDone_gap (n : Nibble) (dist : Dist) (s : State) : (shortDone n dist s).gap = gapOf dist := by simp [shortDone, headDone, distField_encoded]
@[simp] theorem shortDone_pos (n : Nibble) (dist : Dist) (s : State) : (shortDone n dist s).pos = s.ooff - gapOf dist + shortLen n := by simp [shortDone, headDone, distField_encoded]
@[simp] theorem shortDone_inMem (n : Nibble) (dist : Dist) (s : State) : (shortDone n dist s).inMem = s.inMem := by simp [shortDone, headDone, distField_encoded]
@[simp] theorem shortDone_stage (n : Nibble) (dist : Dist) (s : State) : (shortDone n dist s).stage = .loop := by simp [shortDone, headDone, distField_encoded]
@[simp] theorem shortDone_hostQueue (n : Nibble) (dist : Dist) (s : State) : (shortDone n dist s).hostQueue = s.hostQueue := by simp [shortDone, headDone, distField_encoded]
@[simp] theorem shortDone_readData (n : Nibble) (dist : Dist) (s : State) : (shortDone n dist s).readData = s.readData := by simp [shortDone, headDone, distField_encoded]
@[simp] theorem shortDone_draws (n : Nibble) (dist : Dist) (s : State) : (shortDone n dist s).draws = s.draws := by simp [shortDone, headDone, distField_encoded]
@[simp] theorem shortDone_histFill (n : Nibble) (dist : Dist) (s : State) : (shortDone n dist s).histFill = s.histFill := by simp [shortDone, headDone, distField_encoded]

@[simp] theorem longDone_inPresent (dist : Dist) (m : Byte) (s : State) : (longDone dist m s).inPresent = s.inPresent := by simp [longDone, headDone, distField_encoded]
@[simp] theorem longDone_phase (dist : Dist) (m : Byte) (s : State) : (longDone dist m s).phase = s.phase := by simp [longDone, headDone, distField_encoded]
@[simp] theorem longDone_status (dist : Dist) (m : Byte) (s : State) : (longDone dist m s).status = s.status := by simp [longDone, headDone, distField_encoded]
@[simp] theorem longDone_inSize (dist : Dist) (m : Byte) (s : State) : (longDone dist m s).inSize = s.inSize := by simp [longDone, headDone, distField_encoded]
@[simp] theorem longDone_dlen (dist : Dist) (m : Byte) (s : State) : (longDone dist m s).dlen = s.dlen := by simp [longDone, headDone, distField_encoded]
@[simp] theorem longDone_n (dist : Dist) (m : Byte) (s : State) : (longDone dist m s).n = s.n := by simp [longDone, headDone, distField_encoded]
@[simp] theorem longDone_present (dist : Dist) (m : Byte) (s : State) : (longDone dist m s).present = s.present := by simp [longDone, headDone, distField_encoded]
@[simp] theorem longDone_psize (dist : Dist) (m : Byte) (s : State) : (longDone dist m s).psize = s.psize := by simp [longDone, headDone, distField_encoded]
@[simp] theorem longDone_ioff (dist : Dist) (m : Byte) (s : State) : (longDone dist m s).ioff = s.ioff + 3 := by simp [longDone, headDone, distField_encoded]
@[simp] theorem longDone_ooff (dist : Dist) (m : Byte) (s : State) : (longDone dist m s).ooff = s.ooff + longLen m := by simp [longDone, headDone, distField_encoded]
@[simp] theorem longDone_mask (dist : Dist) (m : Byte) (s : State) : (longDone dist m s).mask = s.mask := by simp [longDone, headDone, distField_encoded]
@[simp] theorem longDone_header (dist : Dist) (m : Byte) (s : State) : (longDone dist m s).header = s.header := by simp [longDone, headDone, distField_encoded]
@[simp] theorem longDone_byte1 (dist : Dist) (m : Byte) (s : State) : (longDone dist m s).byte1 = firstByte 0#4 dist := by simp [longDone, headDone, distField_encoded]
@[simp] theorem longDone_byte2 (dist : Dist) (m : Byte) (s : State) : (longDone dist m s).byte2 = secondByte dist := by simp [longDone, headDone, distField_encoded]
@[simp] theorem longDone_byte3 (dist : Dist) (m : Byte) (s : State) : (longDone dist m s).byte3 = m := by simp [longDone, headDone, distField_encoded]
@[simp] theorem longDone_dist (dist : Dist) (m : Byte) (s : State) : (longDone dist m s).dist = dist := by simp [longDone, headDone, distField_encoded]
@[simp] theorem longDone_len (dist : Dist) (m : Byte) (s : State) : (longDone dist m s).len = longLen m := by simp [longDone, headDone, distField_encoded]
@[simp] theorem longDone_gap (dist : Dist) (m : Byte) (s : State) : (longDone dist m s).gap = gapOf dist := by simp [longDone, headDone, distField_encoded]
@[simp] theorem longDone_pos (dist : Dist) (m : Byte) (s : State) : (longDone dist m s).pos = s.ooff - gapOf dist + longLen m := by simp [longDone, headDone, distField_encoded]
@[simp] theorem longDone_inMem (dist : Dist) (m : Byte) (s : State) : (longDone dist m s).inMem = s.inMem := by simp [longDone, headDone, distField_encoded]
@[simp] theorem longDone_stage (dist : Dist) (m : Byte) (s : State) : (longDone dist m s).stage = .loop := by simp [longDone, headDone, distField_encoded]
@[simp] theorem longDone_hostQueue (dist : Dist) (m : Byte) (s : State) : (longDone dist m s).hostQueue = s.hostQueue := by simp [longDone, headDone, distField_encoded]
@[simp] theorem longDone_readData (dist : Dist) (m : Byte) (s : State) : (longDone dist m s).readData = s.readData := by simp [longDone, headDone, distField_encoded]
@[simp] theorem longDone_draws (dist : Dist) (m : Byte) (s : State) : (longDone dist m s).draws = s.draws := by simp [longDone, headDone, distField_encoded]
@[simp] theorem longDone_histFill (dist : Dist) (m : Byte) (s : State) : (longDone dist m s).histFill = s.histFill := by simp [longDone, headDone, distField_encoded]

/-- Everything a short back-reference can do: it completes, or it raises MalformedStream (R116). -/
theorem shortRef_cases (n : Nibble) (dist : Dist) (s : State) :
    (s.ioff + 2 ≤ s.psize ∧ gapOf dist ≤ s.ooff ∧ s.ooff + shortLen n ≤ s.dlen.toNat ∧
        shortRef n dist s = .ok (shortDone n dist s)) ∨
      ((s.psize < s.ioff + 2 ∨ s.ooff < gapOf dist ∨ s.dlen.toNat < s.ooff + shortLen n) ∧
        ∃ t, shortRef n dist s = .error t ∧ RefRaised s t ∧ t.byte3 = s.byte3) := by
  by_cases hhead : s.ioff + 2 ≤ s.psize ∧ gapOf dist ≤ s.ooff
  · obtain ⟨hp, hg⟩ := hhead
    have hh := refHead_ok (b1 := firstByte n dist) (b2 := secondByte dist) hp (by rw [distField_encoded]; exact hg)
    by_cases hr : s.ooff + shortLen n ≤ s.dlen.toNat
    · refine .inl ⟨hp, hg, hr, ?_⟩
      simp only [shortRef, bind, Except.bind, hh]
      exact refCopy_ok hr
    · refine .inr ⟨.inr (.inr (by omega)), ?_⟩
      simp only [shortRef, bind, Except.bind, hh]
      refine ⟨_, refCopy_error (show s.dlen.toNat < s.ooff + shortLen n by omega), ?_, rfl⟩
      constructor <;> simp [Reason.signal, SameHostSide, SameBounds, SameWindow, headDone]
      exact fun _ => hp
  · refine .inr ⟨by omega, ?_⟩
    obtain ⟨t, ht, hr⟩ := refHead_error (b1 := firstByte n dist) (b2 := secondByte dist) (s := s)
      (by rw [distField_encoded]; omega)
    exact ⟨t, by simp [shortRef, bind, Except.bind, ht], hr⟩

/-- Everything a long back-reference can do: it completes, or it raises MalformedStream (R117). -/
theorem longRef_cases (dist : Dist) (m : Byte) (s : State) :
    (s.ioff + 3 ≤ s.psize ∧ gapOf dist ≤ s.ooff ∧ s.ooff + longLen m ≤ s.dlen.toNat ∧
        longRef dist m s = .ok (longDone dist m s)) ∨
      ((s.psize < s.ioff + 3 ∨ s.ooff < gapOf dist ∨ s.dlen.toNat < s.ooff + longLen m) ∧
        ∃ t, longRef dist m s = .error t ∧ RefRaised s t) := by
  by_cases hhead : s.ioff + 2 ≤ s.psize ∧ gapOf dist ≤ s.ooff
  · obtain ⟨hp, hg⟩ := hhead
    have hh := refHead_ok (b1 := firstByte 0#4 dist) (b2 := secondByte dist) hp (by rw [distField_encoded]; exact hg)
    by_cases h3 : s.psize ≤ s.ioff + 2
    · refine .inr ⟨.inl (by omega), ?_⟩
      have h3' : (headDone (firstByte 0#4 dist) (secondByte dist) s).psize ≤
          (headDone (firstByte 0#4 dist) (secondByte dist) s).ioff := h3
      refine ⟨raise .payloadOverrun (headDone (firstByte 0#4 dist) (secondByte dist) s),
        by simp only [longRef, bind, Except.bind, hh, payRead_error h3'], ?_⟩
      constructor <;> simp [Reason.signal, SameHostSide, SameBounds, SameWindow, headDone] <;> omega
    · have h3' : (headDone (firstByte 0#4 dist) (secondByte dist) s).ioff <
          (headDone (firstByte 0#4 dist) (secondByte dist) s).psize := by
        show s.ioff + 2 < s.psize
        omega
      by_cases hr : s.ooff + longLen m ≤ s.dlen.toNat
      · refine .inl ⟨by omega, hg, hr, ?_⟩
        simp only [longRef, bind, Except.bind, hh, payRead_ok h3']
        exact refCopy_ok hr
      · refine .inr ⟨.inr (.inr (by omega)), ?_⟩
        simp only [longRef, bind, Except.bind, hh, payRead_ok h3']
        refine ⟨_, refCopy_error (show s.dlen.toNat < s.ooff + longLen m by omega), ?_⟩
        constructor <;> simp [Reason.signal, SameHostSide, SameBounds, SameWindow, headDone] <;> omega
  · refine .inr ⟨by omega, ?_⟩
    obtain ⟨t, ht, hr, -⟩ := refHead_error (b1 := firstByte 0#4 dist) (b2 := secondByte dist) (s := s)
      (by rw [distField_encoded]; omega)
    exact ⟨t, by simp [longRef, bind, Except.bind, ht], hr⟩

end Sys2Proof.Machine
end

