-- ==== Sys2Proof/Laws/PerInstr.lean ====
section
/-! SUPPORT. Statements about every token as syntax, one lemma per constructor: the encoding of a token has the length
the spec gives the token (rules R61 to R66). -/

namespace Sys2Proof.Laws.EncodingSize

/-- A token's encoding is as long as the spec says the token is. -/
def Statement (i : Instr) : Prop := (encode i).length = i.size

theorem hdr (dlen : Length32) (reserved : Reserved64) : Statement (.hdr dlen reserved) := rfl

theorem ctrl (c : Byte) : Statement (.ctrl c) := rfl

theorem lit (imm8 : Byte) : Statement (.lit imm8) := rfl

theorem refs (n : Nibble) (dist : Dist) : Statement (.refs n dist) := rfl

theorem refl (dist : Dist) (m : Byte) : Statement (.refl dist m) := rfl

end Sys2Proof.Laws.EncodingSize
end

