-- ==== Sys2Proof/Laws/Step.lean ====
section
/-! SUPPORT. Everything a step can do: one inversion lemma for each token's meaning, for the core's step and for the
host's moves. -/

namespace Sys2Proof.Machine

/-! ### The meanings -/

/-- HDR always enters Phase 2 (R88). -/
theorem execHdr_next {dlen : Length32} {reserved : Reserved64} {s t : State}
    (h : execHdr dlen reserved s = .next t) :
    t = enterExpand { s with dlen := dlen, psize := s.n - Config.hdrSize } := by
  simp only [execHdr, Host.Outcome.next.injEq] at h
  exact h.symm

/-- CTRL loads the window or raises (R92). -/
theorem execCtrl_next {c : Byte} {s t : State} (h : execCtrl c s = .next t) :
    (s.ioff < s.psize ∧ t = loadWindow c (advance s)) ∨ (s.psize ≤ s.ioff ∧ t = raise .payloadOverrun s) := by
  by_cases hp : s.psize ≤ s.ioff
  · simp only [execCtrl, payRead_error hp, Except.map, settle, Host.Outcome.next.injEq] at h
    exact .inr ⟨hp, h.symm⟩
  · simp only [execCtrl, payRead_ok (Nat.not_le.mp hp), Except.map, settle, Host.Outcome.next.injEq] at h
    exact .inl ⟨Nat.not_le.mp hp, h.symm⟩

/-- LIT finishes, copies its byte or raises (R100, R101). -/
theorem execLit_next {v : Byte} {s t : State} (h : execLit v s = .next t) :
    (s.dlen.toNat ≤ s.ooff ∧ t = finishOk s) ∨
    (s.ooff < s.dlen.toNat ∧ s.ioff < s.psize ∧ t = endIteration (emit v (advance s))) ∨
    (s.ooff < s.dlen.toNat ∧ s.psize ≤ s.ioff ∧ t = raise .payloadOverrun s) := by
  by_cases hd : s.dlen.toNat ≤ s.ooff
  · simp only [execLit, if_pos hd, Host.Outcome.next.injEq] at h
    exact .inl ⟨hd, h.symm⟩
  · by_cases hp : s.psize ≤ s.ioff
    · simp only [execLit, if_neg hd, payRead_error hp, Except.map, settle, Host.Outcome.next.injEq] at h
      exact .inr (.inr ⟨Nat.not_le.mp hd, hp, h.symm⟩)
    · simp only [execLit, if_neg hd, payRead_ok (Nat.not_le.mp hp), Except.map, settle,
        Host.Outcome.next.injEq] at h
      exact .inr (.inl ⟨Nat.not_le.mp hd, Nat.not_le.mp hp, h.symm⟩)

/-- REFS completes or raises (R116). -/
theorem execRefs_next {n : Nibble} {dist : Dist} {s t : State} (h : execRefs n dist s = .next t) :
    (s.ioff + 2 ≤ s.psize ∧ gapOf dist ≤ s.ooff ∧ s.ooff + shortLen n ≤ s.dlen.toNat ∧ t = shortDone n dist s) ∨
    (RefRaised s t ∧ t.byte3 = s.byte3) := by
  unfold execRefs at h
  split at h
  · simp at h
  · rcases shortRef_cases n dist s with ⟨h1, h2, h3, he⟩ | ⟨-, u, he, hu⟩ <;>
      rw [he, settle, Host.Outcome.next.injEq] at h
    · exact .inl ⟨h1, h2, h3, h.symm⟩
    · exact .inr (h ▸ hu)

/-- REFL completes or raises (R117). -/
theorem execRefl_next {dist : Dist} {m : Byte} {s t : State} (h : execRefl dist m s = .next t) :
    (s.ioff + 3 ≤ s.psize ∧ gapOf dist ≤ s.ooff ∧ s.ooff + longLen m ≤ s.dlen.toNat ∧ t = longDone dist m s) ∨
    RefRaised s t := by
  unfold execRefl at h
  rcases longRef_cases dist m s with ⟨h1, h2, h3, he⟩ | ⟨-, u, he, hu⟩ <;>
    rw [he, settle, Host.Outcome.next.injEq] at h
  · exact .inl ⟨h1, h2, h3, h.symm⟩
  · exact .inr (h ▸ hu)

/-! ### The step -/

theorem step_host {s : State} {m : HostMove} {rest : List HostMove} (h : s.hostQueue = m :: rest) :
    step s = hostMove m { s with hostQueue := rest } := by
  simp [step, h]

theorem step_core {s : State} (h : s.hostQueue = []) : step s = coreStep s := by
  simp [step, h]

/-- A step of a run of several steps. -/
theorem run_succ {s t : State} (h : step s = .next t) (k : Nat) :
    Sys2Proof.core.run (k + 1) s = Sys2Proof.core.run k t := by
  have h' : Sys2Proof.core.step s = .next t := h
  simp only [Host.Core.run, h']

/-- The core fetches a control byte (R92). -/
theorem coreMove_control {s : State} (hp : s.phase = .expand) (hs : s.stage = .control) :
    coreMove s = fetchToken .control s := by
  simp [coreMove, hp, hs]

/-- The core fetches the token the control bit selects (R93). -/
theorem coreMove_token {s : State} (hp : s.phase = .expand) (hs : s.stage = .token) :
    coreMove s = fetchToken s.tokenMode s := by
  simp [coreMove, hp, hs]

/-- Once the guards have passed the core fetches the header record (R81 to R83). -/
theorem coreMove_header {s : State} (hp : s.phase = .header) (hpres : s.present = true)
    (hn : Config.hdrSize ≤ s.n) (hf : s.n ≤ Memory.filledFrom 0 s.inMem) :
    coreMove s = fetchToken .header s := by
  simp only [coreMove, hp, validateHeader, hpres, Nat.not_lt.mpr hn, Nat.not_lt.mpr hf, Bool.not_true,
    Bool.false_eq_true, if_false]

/-- A step runs the token its window decodes to. -/
theorem step_run {s : State} {m : Mode} {i : Instr} {rest : List Byte} (hq : s.hostQueue = [])
    (hm : coreMove s = fetchToken m s) (hd : decode m (s.window m) = .ok (i, rest)) : step s = exec i s := by
  simp only [step_core hq, coreStep, hm, fetchToken, hd]

/-- A step on a header record with a wrong magic (R83). -/
theorem step_badMagic {s : State} {m : Mode} (hq : s.hostQueue = [])
    (hm : coreMove s = fetchToken m s) (hd : decode m (s.window m) = .error .badMagic) :
    step s = .next (raise .badMagic s) := by
  simp only [step_core hq, coreStep, hm, fetchToken, hd]

/-- The loop guard's step (R90, R91). -/
theorem step_loop {s : State} (hq : s.hostQueue = []) (hp : s.phase = .expand) (hs : s.stage = .loop) :
    step s = .next (loopGuard s) := by
  simp only [step_core hq, coreStep, coreMove, hp, hs]

theorem loopGuard_done {s : State} (h : s.dlen.toNat ≤ s.ooff) : loopGuard s = finishOk s := by
  simp [loopGuard, h]

theorem loopGuard_shift {s : State} (h : s.ooff < s.dlen.toNat) :
    loopGuard s = { s with
      mask := shiftMask s.mask, stage := if shiftMask s.mask = 0#16 then .control else .token } := by
  simp [loopGuard, Nat.not_le.mpr h]

/-- What the core can do in one step. -/
inductive CoreCase (s t : State) : Prop where
  /-- IDLE or DONE: nothing (R130, R140). -/
  | rest (hp : s.phase = .idle ∨ s.phase = .done) (ht : t = s)
  /-- A guard or the magic check raised (R81, R82, R83). -/
  | guard (hp : s.phase = .header) (r : Reason) (hr : r = .absentInput ∨ r = .shortHeader ∨ r = .badMagic)
      (ht : t = raise r s)
  /-- HDR ran (R88). -/
  | hdr (hp : s.phase = .header) (hpres : s.present = true) (hn : Config.hdrSize ≤ s.n)
      (hf : s.n ≤ Memory.filledFrom 0 s.inMem) (dlen : Length32)
      (ht : t = enterExpand { s with dlen := dlen, psize := s.n - Config.hdrSize })
  /-- The loop guard (R90, R91). -/
  | loop (hp : s.phase = .expand) (hs : s.stage = .loop) (ht : t = loopGuard s)
  /-- CTRL ran (R92). -/
  | ctrl (hp : s.phase = .expand) (hs : s.stage = .control) (c : Byte) (h : execCtrl c s = .next t)
  /-- LIT ran (R100). -/
  | lit (hp : s.phase = .expand) (hs : s.stage = .token) (v : Byte) (h : execLit v s = .next t)
  /-- REFS ran (R116). -/
  | refs (hp : s.phase = .expand) (hs : s.stage = .token) (n : Nibble) (dist : Dist) (h : execRefs n dist s = .next t)
  /-- REFL ran (R117). -/
  | refl (hp : s.phase = .expand) (hs : s.stage = .token) (dist : Dist) (m : Byte) (h : execRefl dist m s = .next t)

/-- What `fetchToken` gives when the step answers a next state. -/
theorem fetchToken_next {m : Mode} {s t : State}
    (h : (match fetchToken m s with
      | .run i => exec i s
      | .goto u => .next u
      | .fault r => .fault r
      | .refused r => .refused r) = .next t) :
    (∃ i rest, decode m (s.window m) = .ok (i, rest) ∧ exec i s = .next t) ∨
    (m = .header ∧ t = raise .badMagic s) := by
  unfold fetchToken at h
  cases hd : decode m (s.window m) with
  | ok p =>
    obtain ⟨i, rest⟩ := p
    rw [hd] at h
    exact .inl ⟨i, rest, rfl, h⟩
  | error e =>
    rw [hd] at h
    cases e with
    | badMagic => exact .inr ⟨decode_badMagic hd, by simpa using h.symm⟩
    | short => simp at h

/-- Everything a core step can do. -/
theorem coreStep_cases {s t : State} (h : coreStep s = .next t) : CoreCase s t := by
  unfold coreStep coreMove at h
  cases hp : s.phase with
  | idle => rw [hp] at h; exact .rest (.inl hp) (by simpa using h.symm)
  | done => rw [hp] at h; exact .rest (.inr hp) (by simpa using h.symm)
  | header =>
    rw [hp] at h
    simp only [validateHeader] at h
    by_cases h1 : s.present = true
    · by_cases h2 : s.n < Config.hdrSize
      · exact .guard hp .shortHeader (by simp) (by simpa [h1, h2] using h.symm)
      · by_cases h3 : Memory.filledFrom 0 s.inMem < s.n
        · simp [h1, h2, h3] at h
        · simp only [h1, h2, h3, Bool.not_true, if_false, Bool.false_eq_true] at h
          rcases fetchToken_next h with ⟨i, rest, hd, he⟩ | ⟨-, ht⟩
          · obtain ⟨d, r, rfl⟩ := decodeHeader_ok hd
            exact .hdr hp h1 (Nat.not_lt.mp h2) (Nat.not_lt.mp h3) d (execHdr_next (reserved := r) he)
          · exact .guard hp .badMagic (by simp) ht
    · exact .guard hp .absentInput (by simp) (by simpa [h1] using h.symm)
  | expand =>
    rw [hp] at h
    cases hs : s.stage with
    | loop => rw [hs] at h; exact .loop hp hs (by simpa using h.symm)
    | control =>
      rw [hs] at h
      rcases fetchToken_next h with ⟨i, rest, hd, he⟩ | ⟨hm, -⟩
      · obtain ⟨c, rfl, -⟩ := decodeControl_ok hd
        exact .ctrl hp hs c he
      · simp at hm
    | token =>
      rw [hs] at h
      rcases fetchToken_next h with ⟨i, rest, hd, he⟩ | ⟨hm, -⟩
      · unfold State.tokenMode at hd
        split at hd
        · obtain ⟨v, rfl, -⟩ := decodeLiteral_ok hd
          exact .lit hp hs v he
        · obtain ⟨b1, b2, ⟨-, b3, rfl, -⟩ | ⟨-, rfl, -⟩⟩ := decodeBackref_ok hd
          · exact .refl hp hs _ _ he
          · exact .refs hp hs _ _ he
      · unfold State.tokenMode at hm
        split at hm <;> simp at hm

/-! ### The host's moves -/

/-- What the host can do in one step: reset, or a change of nothing but its own registers, START's samples, IN, and
the model's own read value and counter. -/
inductive HostCase (m : HostMove) (s t : State) : Prop where
  /-- Hardware reset (R140). -/
  | reset (hm : m = .reset) (ht : t = hardReset s)
  /-- START accepted (R80). -/
  | start (hm : ∃ v, m = .writeReg .ctrl v ∧ v.testBit 0 = true) (hb : s.busy = false) (old present : Bool)
      (draws : Nat)
      (ht : t = { s with inPresent := present, phase := .header, n := s.inSize, present := old, draws := draws })
  /-- A register write (R12). -/
  | write (present : Bool) (size : Nat) (hsz : size = s.inSize ∨ size < 2 ^ Config.aw)
      (ht : t = { s with inPresent := present, inSize := size })
  /-- A read (R12, R128). -/
  | read (v draws : Nat) (ht : t = { s with readData := v, draws := draws })
  /-- A byte placed in IN (R142). -/
  | place (hb : s.busy = false) (a : Nat) (v : Byte) (ht : t = { s with inMem := Memory.write .input s.inMem a v })

/-- Everything a host move can do. -/
theorem hostMove_cases {m : HostMove} {s t : State} (h : hostMove m s = .next t) : HostCase m s t := by
  cases m with
  | reset => exact .reset rfl (by simpa [hostMove] using h.symm)
  | writeReg r v =>
    simp only [hostMove, Host.Outcome.next.injEq] at h
    subst h
    cases r with
    | ctrl =>
      simp only [writeReg, writeCtrl]
      split
      · next hc =>
        rw [Bool.and_eq_true, Bool.not_eq_true'] at hc
        exact .start ⟨v, rfl, hc.1⟩ hc.2 _ _ _ rfl
      · exact .write _ s.inSize (.inl rfl) rfl
    | stat => exact .write s.inPresent s.inSize (.inl rfl) rfl
    | inSize =>
      exact .write s.inPresent _ (.inr (Nat.mod_lt _ (Nat.two_pow_pos _))) rfl
    | dlen => exact .write s.inPresent s.inSize (.inl rfl) rfl
  | readReg r =>
    simp only [hostMove, Host.Outcome.next.injEq] at h
    subst h
    cases r with
    | ctrl => exact .read _ s.draws rfl
    | stat =>
      simp only [readReg]
      split
      · exact .read _ s.draws rfl
      · exact .read _ (s.draws + 1) rfl
    | inSize => exact .read _ s.draws rfl
    | dlen =>
      simp only [readReg]
      split
      · exact .read _ s.draws rfl
      · exact .read _ (s.draws + 1) rfl
  | writeIn a v =>
    simp only [hostMove, writeIn] at h
    split at h
    · simp at h
    · next hb => exact .place (by simpa using hb) a v (by simpa using h.symm)
  | readOut i =>
    simp only [hostMove, readOut] at h
    split at h
    · simp at h
    · split at h
      · simp at h
      · exact .read _ s.draws (by simpa [returned] using h.symm)

/-- Everything a step can do: the host's move on the state without it, or the core's. -/
theorem step_cases {s t : State} (h : step s = .next t) :
    (∃ m rest, s.hostQueue = m :: rest ∧ HostCase m { s with hostQueue := rest } t) ∨
    (s.hostQueue = [] ∧ CoreCase s t) := by
  cases hq : s.hostQueue with
  | nil => rw [step_core hq] at h; exact .inr ⟨rfl, coreStep_cases h⟩
  | cons m rest => rw [step_host hq] at h; exact .inl ⟨m, rest, rfl, hostMove_cases h⟩

end Sys2Proof.Machine
end

