-- ==== Sys2Proof/Tests/Slice0.lean ====
section
/-! SUPPORT. Tests of the model. Every expected result is taken from the spec's formats, examples and test vectors
(95_test_vectors.md), named in each comment; the witnesses at the end show that the hypotheses of each statement can be
met, clause by clause, at the edges of their ranges. -/

namespace Sys2Proof.Tests

open Sys2Proof.Machine

/-! ### Helpers -/

/-- What `f` sees of the next state, if there is one. -/
def after {α : Type} (o : Host.Outcome State Fault Refusal) (f : State → α) : Option α :=
  match o with
  | .next t => some (f t)
  | .fault _ => none
  | .refused _ => none

/-- The header record `H(d)` with the four length bytes given. -/
def header (d0 d1 d2 d3 : Byte) : List Byte :=
  [0x59#8, 0x61#8, 0x7A#8, 0x30#8, d0, d1, d2, d3, 0#8, 0#8, 0#8, 0#8, 0#8, 0#8, 0#8, 0#8]

/-- Space IN holding these bytes from address 0 on. -/
def placed (bs : List Byte) : Memory := Memory.place .input [] 0 bs

/-- START was accepted on these bytes. -/
def launch (bs : List Byte) : State :=
  { State.reset with phase := .header, present := true, n := bs.length, inMem := placed bs }

/-- Phase 2 has just been entered with output length `d` and this payload. -/
def phaseTwo (d : Byte) (payload : List Byte) : State :=
  { State.reset with
    phase := .expand, present := true, n := 16 + payload.length, psize := payload.length,
    dlen := d.setWidth 32, inMem := placed (header 0#8 0#8 0#8 d ++ payload) }

/-- These bytes of output have been produced. -/
def produced (bs : List Byte) (s : State) : State :=
  { s with
    outMem := Memory.place .output [] 0 bs
    histMem := Memory.place .history [] 0 bs
    ooff := bs.length }

/-- The control window holds a control byte and the mask of the token that is due. -/
def due (control : Byte) (mask : Mask) (s : State) : State :=
  { s with header := control, mask := mask, stage := .token }

/-- The host has these moves waiting. -/
def waiting (ms : List HostMove) (s : State) : State := { s with hostQueue := ms }

/-- A run has ended OK with these bytes. -/
def finished (bs : List Byte) : State :=
  { produced bs State.reset with phase := .done, status := .ok, dlen := BitVec.ofNat 32 bs.length }

/-- The first `k` bytes of OUT. -/
def outBytes (k : Nat) (t : State) : List Byte := (List.range k).map t.outByte

/-! ### Well-formedness -/

/-- R64: a short back-reference with a zero nibble has no encoding. -/
theorem test_wf_refs_zero_nibble : (Instr.refs 0#4 5#12).wf = false := by decide

/-- R64, R70: the least and the greatest nibble, and every other token, are well-formed. -/
theorem test_wf_others :
    (Instr.refs 1#4 0#12).wf = true ∧ (Instr.refs 15#4 0xFFF#12).wf = true ∧ (Instr.refl 0#12 0#8).wf = true ∧
    (Instr.lit 0xFF#8).wf = true ∧ (Instr.ctrl 0#8).wf = true ∧ (Instr.hdr 0#32 0#64).wf = true := by decide

/-- R68, R72: lengths 2 and 274 cannot be expressed. -/
theorem test_ref_inexpressible : Instr.ref 0#12 2 = none ∧ Instr.ref 0#12 274 = none := by decide

/-- R72: the pseudo-instruction at the ends of the two ranges. -/
theorem test_ref_ranges :
    Instr.ref 2#12 3 = some (.refs 1#4 2#12) ∧ Instr.ref 2#12 17 = some (.refs 15#4 2#12) ∧
    Instr.ref 2#12 18 = some (.refl 2#12 0#8) ∧ Instr.ref 2#12 273 = some (.refl 2#12 0xFF#8) := by decide

/-! ### Decoding, from words written out by the formats and the listings of P1, T38 and T41 -/

/-- R61 and P1: `HDR 32`; the reserved bytes 01 to 08 of T20. -/
theorem test_decode_hdr :
    decode .header (header 0#8 0#8 0#8 0x20#8) = .ok (.hdr 32#32 0#64, []) ∧
    decode .header [0x59#8, 0x61#8, 0x7A#8, 0x30#8, 0#8, 0#8, 0#8, 1#8, 1#8, 2#8, 3#8, 4#8, 5#8, 6#8, 7#8, 8#8] =
      .ok (.hdr 1#32 0x0102030405060708#64, []) := by decide

/-- R84: the length is big-endian: `12 01 00 00` is 302055424. -/
theorem test_decode_hdr_big_endian :
    decode .header (header 0x12#8 0x01#8 0#8 0#8) = .ok (.hdr 302055424#32 0#64, []) := by decide

/-- R83: a lower-case y, a last character 1 and the reversed magic are rejected, by the magic and not as short. -/
theorem test_decode_bad_magic :
    decode .header [0x79#8, 0x61#8, 0x7A#8, 0x30#8] = .error .badMagic ∧
    decode .header [0x59#8, 0x61#8, 0x7A#8, 0x31#8] = .error .badMagic ∧
    decode .header [0x30#8, 0x7A#8, 0x61#8, 0x59#8] = .error .badMagic ∧
    decode .header [0x59#8, 0x61#8, 0x7A#8] = .error .short := by decide

/-- R62, R63, R66: 0x80 is a control byte, a literal, or the first byte of a REFS with `n = 8` and `d_hi = 0`. -/
theorem test_decode_modal :
    decode .control [0x80#8] = .ok (.ctrl 0x80#8, []) ∧
    decode .literal [0x80#8] = .ok (.lit 0x80#8, []) ∧
    decode .backref [0x80#8, 0x01#8] = .ok (.refs 8#4 1#12, []) := by decide

/-- R64: the pattern `nnnn dddd dddd dddd`: `1011 0110 1110 0101` is `n = 11`, `DIST = 0x6E5`. -/
theorem test_decode_refs :
    decode .backref [0b10110110#8, 0b11100101#8, 0xAA#8] = .ok (.refs 11#4 0x6E5#12, [0xAA#8]) ∧
    decode .backref [0xFF#8, 0xFF#8] = .ok (.refs 15#4 4095#12, []) ∧
    decode .backref [0x11#8, 0x00#8] = .ok (.refs 1#4 256#12, []) := by decide

/-- R65: the pattern `0000 dddd dddd dddd mmmm mmmm`: `0000 0110 1110 0101 1001 0001` is `DIST = 0x6E5`, `m = 0x91`. -/
theorem test_decode_refl :
    decode .backref [0b00000110#8, 0b11100101#8, 0b10010001#8] = .ok (.refl 0x6E5#12 0x91#8, []) ∧
    decode .backref [0x0F#8, 0xFF#8, 0xFF#8] = .ok (.refl 4095#12 0xFF#8, []) ∧
    decode .backref [0x00#8, 0x01#8] = .error .short := by decide

/-- R72: the encoder emits the bytes of the listing of P1. -/
theorem test_encode :
    encode (.refs 1#4 2#12) = [0x10#8, 0x02#8] ∧ encode (.refl 1#12 0#8) = [0x00#8, 0x01#8, 0x00#8] ∧
    encode (.ctrl 0xEB#8) = [0xEB#8] ∧ encode (.lit 0x61#8) = [0x61#8] ∧
    encode (.hdr 32#32 0#64) = header 0#8 0#8 0#8 0x20#8 := by decide

/-- The opcode table's numbering: the first byte is the most significant; a REFS row with a zero nibble is a REFL. -/
theorem test_decode_table_word :
    decodeTableWord 128 0x59617A30000001120000000000000000 = some (.hdr 274#32 0#64) ∧
    decodeTableWord 8 0x80 = some (.ctrl 0x80#8) ∧
    decodeTableWord 16 0xF123 = some (.refs 15#4 0x123#12) ∧
    decodeTableWord 16 0x0123 = some (.refl 0x123#12 0#8) ∧
    decodeTableWord 24 0x012345 = some (.refl 0x123#12 0x45#8) := by decide

/-! ### One step of each token -/

/-- R87, R88: after a valid header with `DLEN = 4`, `N = 21` the step leaves `PSIZE = 5`, cursors and `MASK` zero,
`PHASE = EXPAND`. -/
theorem test_hdr_enters_phase_two :
    after (step (launch (header 0#8 0#8 0#8 4#8 ++ [0xF0#8, 0x11#8, 0x22#8, 0x33#8, 0x44#8])))
      (fun t => (t.dlen, t.psize, t.ioff, t.ooff, t.mask, t.phase)) = some (4#32, 5, 0, 0, 0#16, .expand) := by decide

/-- T11: `59 61 7A 31` and 12 zero bytes, `N = 16`: status 1, and the length field is not read. -/
theorem test_hdr_wrong_magic :
    after (step { launch (0x59#8 :: 0x61#8 :: 0x7A#8 :: 0x31#8 :: List.replicate 12 0#8) with dlen := 7#32 })
      (fun t => (t.status, t.phase, t.dlen)) = some (.notThisFormat, .done, 7#32) := by decide

/-- R92, its example: `IOFF = 0`, `IN[16] = 0xF0` gives `HEADER = 0xF0`, `MASK = 0x0080`, `IOFF = 1`. -/
theorem test_ctrl_loads_window :
    after (step { phaseTwo 4#8 [0xF0#8, 0x11#8] with stage := .control })
      (fun t => (t.header, t.mask, t.ioff, t.phase)) = some (0xF0#8, 0x0080#16, 1, .expand) := by decide

/-- T14: `H(1)` without a payload raises MalformedStream at the control fetch; `IOFF` has not moved. -/
theorem test_ctrl_payload_overrun :
    after (step { phaseTwo 1#8 [] with stage := .control })
      (fun t => (t.status, t.phase, t.dlen, t.ioff)) = some (.malformedStream, .done, 1#32, 0) := by decide

/-- T2, iteration 0: the literal 11 goes to `OUT[0]`, `IOFF = 2`, `OOFF = 1`. -/
theorem test_lit_copies :
    after (step { due 0xF0#8 0x0080#16 (phaseTwo 4#8 [0xF0#8, 0x11#8, 0x22#8]) with ioff := 1 })
      (fun t => (t.outByte 0, t.histByte 0, t.ioff, t.ooff, t.phase)) =
      some (0x11#8, 0x11#8, 2, 1, .expand) := by decide

/-- T25: `H(2)` `80`: the literal byte is missing. -/
theorem test_lit_payload_overrun :
    after (step { due 0x80#8 0x0080#16 (phaseTwo 2#8 [0x80#8]) with ioff := 1 })
      (fun t => (t.status, t.phase, t.ioff, t.ooff)) = some (.malformedStream, .done, 1, 0) := by decide

/-- T27: `50 02` after 41 42 43 copies seven bytes from three behind: the pattern repeats. -/
theorem test_refs_overlaps :
    after (step { due 0xE0#8 0x0010#16
        (produced [0x41#8, 0x42#8, 0x43#8] (phaseTwo 10#8 [0xE0#8, 0x41#8, 0x42#8, 0x43#8, 0x50#8, 0x02#8])) with
        ioff := 4 })
      (fun t => (outBytes 10 t, t.dist, t.gap, t.len, t.ioff, t.ooff)) =
      some ([0x41#8, 0x42#8, 0x43#8, 0x41#8, 0x42#8, 0x43#8, 0x41#8, 0x42#8, 0x43#8, 0x41#8], 2#12, 3, 7, 6, 10) := by
  decide

/-- P2, iteration 2: `10 02` after two bytes reaches before the start of the output; nothing is written. -/
theorem test_refs_negative_position :
    after (step { due 0xC0#8 0x0020#16
        (produced [0x41#8, 0x42#8] (phaseTwo 8#8 [0xC0#8, 0x41#8, 0x42#8, 0x10#8, 0x02#8])) with ioff := 3 })
      (fun t => (t.status, t.phase, t.dlen, outBytes 3 t)) =
      some (.malformedStream, .done, 8#32, [0x41#8, 0x42#8, 0#8]) := by decide

/-- P1, iteration 8: `REFL 1, 18` copies the last two bytes, 65 66, over and over; `IOFF` moves by three. -/
theorem test_refl_pattern_of_two :
    after (step { due 0x40#8 0x0080#16 (produced [0x65#8, 0x66#8] (phaseTwo 32#8 [0x40#8, 0x00#8, 0x01#8, 0x00#8])) with
        ioff := 1 })
      (fun t => (outBytes 6 t, t.outByte 18, t.outByte 19, t.len, t.ioff, t.ooff)) =
      some ([0x65#8, 0x66#8, 0x65#8, 0x66#8, 0x65#8, 0x66#8], 0x65#8, 0x66#8, 18, 4, 20) := by decide

/-- T37: `11 00` is short, `00 00` without a third byte is a payload overrun; `IOFF` has moved past the two bytes that
were there. -/
theorem test_refl_third_byte_missing :
    after (step { due 0x80#8 0x0040#16 (produced [0x11#8] (phaseTwo 30#8 [0x80#8, 0x11#8, 0x00#8, 0x00#8])) with
        ioff := 2 })
      (fun t => (t.status, t.phase, t.ioff, t.ooff)) = some (.malformedStream, .done, 4, 1) := by decide

/-! ### The guards, the loop and the host -/

/-- T7b: absent input with `IN_SIZE = 0` is InvalidArgument; T8 and T10: a short input is Truncated, its magic unread. -/
theorem test_guards :
    after (step { launch [] with present := false }) (fun t => (t.status, t.phase)) =
      some (.invalidArgument, .done) ∧
    after (step (launch [])) (fun t => (t.status, t.phase)) = some (.truncated, .done) ∧
    after (step (launch [0x59#8, 0x61#8, 0x79#8, 0x30#8])) (fun t => (t.status, t.phase)) =
      some (.truncated, .done) := by decide

/-- T13: `H(0)` ends OK at the loop guard; R91: `0x0080 >> 1 = 0x0040`; `MASK = 1` shifts to 0 and a control byte is due. -/
theorem test_loop :
    after (step (phaseTwo 0#8 [])) (fun t => (t.status, t.phase)) = some (.ok, .done) ∧
    after (step { phaseTwo 4#8 [] with mask := 0x0080#16 }) (fun t => (t.mask, t.stage)) =
      some (0x0040#16, .token) ∧
    after (step { phaseTwo 4#8 [] with mask := 0x0001#16 }) (fun t => (t.mask, t.stage)) =
      some (0x0000#16, .control) := by decide

/-- R80: a write of 3 to `CTRL` in IDLE, `IN_PRESENT` set before: `PHASE = HEADER`, `N` and `present` sampled. -/
theorem test_start :
    after (step (waiting [.writeReg .ctrl 3] { State.reset with inPresent := true, inSize := 21 }))
      (fun t => (t.phase, t.n, t.present, t.inPresent)) = some (.header, 21, true, true) := by decide

/-- R12, R15, R16: `STAT` after a MalformedStream reads 4 in bits 4:2 and 3 in bits 1:0, that is 19. -/
theorem test_read_stat :
    after (step (waiting [.readReg .stat] { State.reset with phase := .done, status := .malformedStream }))
      (fun t => (t.readData, t.phase)) = some (19, .done) := by decide

/-- R142, U11: a launch state whose IN has fewer than `IN_SIZE` bytes is refused. -/
theorem test_input_short :
    step { launch (header 0#8 0#8 0#8 4#8) with n := 21 } = .refused .inputShort := by rfl

/-- The token of a table word is what the first step after reset runs (R88, R92, R116, R117). -/
theorem test_with_fetch_word :
    after (step (State.reset.withFetchWord 128 0x59617A30000000040000000000000000)) (fun t => (t.dlen, t.phase)) =
      some (4#32, .expand) ∧
    after (step (State.reset.withFetchWord 8 0xF0)) (fun t => (t.header, t.mask)) = some (0xF0#8, 0x0080#16) ∧
    after (step (State.reset.withFetchWord 16 0x1002)) (fun t => (t.byte1, t.byte2)) = some (0x10#8, 0x02#8) ∧
    after (step (State.reset.withFetchWord 24 0x000100)) (fun t => (t.byte1, t.byte2)) = some (0#8, 1#8) := by decide

/-! ### Witnesses: states and operands that meet the hypotheses of the statements

Each theorem is named after its statement. Where a statement has clauses, each has a witness, at the edge of its
range. -/

/-- A run of Phase 2 with one byte of output owed and a control byte to come meets the invariant. -/
theorem test_witness_invariant : (phaseTwo 1#8 [0x80#8, 0x11#8]).Inv := by
  refine ⟨by unfold State.memoryCanonical; decide, by unfold State.maskLegal; decide,
    by unfold State.cursorsInRange; decide, by unfold State.outBelowCursor; decide,
    by unfold State.histInWindow; decide, fun p hp => absurd hp (Nat.not_lt_zero p),
    fun _ => by decide, Nat.two_pow_pos _⟩

theorem test_witness_DecodeOfEncodeIsTheToken :
    (Instr.refs 1#4 0xFFF#12).wf = true ∧ (Instr.refs 15#4 0#12).wf = true ∧ (Instr.refl 0xFFF#12 0xFF#8).wf = true := by
  decide

theorem test_witness_DecodedBytesAreTheEncoding :
    decode .header (header 0xFF#8 0xFF#8 0xFF#8 0xFF#8 ++ [1#8]) = .ok (.hdr 0xFFFFFFFF#32 0#64, [1#8]) ∧
    decode .control [0#8] = .ok (.ctrl 0#8, []) ∧ decode .literal [0xFF#8] = .ok (.lit 0xFF#8, []) ∧
    decode .backref [0x1F#8, 0xFF#8] = .ok (.refs 1#4 0xFFF#12, []) ∧
    decode .backref [0x0F#8, 0xFF#8, 0#8] = .ok (.refl 0xFFF#12 0#8, []) := by decide

theorem test_witness_EveryPayloadPatternDecodes :
    Mode.control ≠ .header ∧ Mode.literal ≠ .header ∧ Mode.backref ≠ .header := by decide

theorem test_witness_EachCopyHasOneEncoding :
    copyOperands (.refs 1#4 7#12) = some (7#12, 3) ∧ copyOperands (.refs 15#4 7#12) = some (7#12, 17) ∧
    copyOperands (.refl 7#12 0#8) = some (7#12, 18) ∧ copyOperands (.refl 7#12 0xFF#8) = some (7#12, 273) := by decide

theorem test_witness_ResetGivesIdleWithoutInput :
    (waiting [.reset, .readReg .stat] (phaseTwo 1#8 [])).hostQueue = .reset :: [.readReg .stat] := rfl

theorem test_witness_CoreRestsInIdleAndDone :
    State.reset.hostQueue = [] ∧ State.reset.phase = .idle ∧ (finished []).hostQueue = [] ∧
    (finished []).phase = .done := by decide

/-- START with `IN_PRESENT` as it is, from IDLE and from DONE, and START that changes it. -/
theorem test_witness_StartBeginsARun :
    (waiting [.writeReg .ctrl 1] State.reset).hostQueue = [.writeReg .ctrl 1] ∧
    (waiting [.writeReg .ctrl 1] State.reset).phase = .idle ∧
    Nat.testBit 1 0 = true ∧ Nat.testBit 1 1 = State.reset.inPresent ∧
    (waiting [.writeReg .ctrl 3] (finished [])).hostQueue = [.writeReg .ctrl 3] ∧
    (waiting [.writeReg .ctrl 3] (finished [])).phase = .done ∧
    Nat.testBit 3 0 = true ∧ Nat.testBit 3 1 ≠ (finished []).inPresent := by decide

theorem test_witness_StartWhileBusyIsIgnored :
    (waiting [.writeReg .ctrl 3] (launch [])).hostQueue = [.writeReg .ctrl 3] ∧
    (waiting [.writeReg .ctrl 3] (launch [])).phase = .header ∧
    (waiting [.writeReg .ctrl 1] (phaseTwo 1#8 [])).hostQueue = [.writeReg .ctrl 1] ∧
    (waiting [.writeReg .ctrl 1] (phaseTwo 1#8 [])).phase = .expand := by decide

/-- `IN_SIZE` at its least and greatest value, and a word with a bit above its width: the width is open, so it names
them. -/
theorem test_witness_RegisterWritesReachOnlyTheirFields :
    (waiting [.writeReg .ctrl 2] State.reset).hostQueue = [.writeReg .ctrl 2] ∧ Nat.testBit 2 0 = false ∧
    (waiting [.writeReg .stat 1] State.reset).hostQueue = [.writeReg .stat 1] ∧
    (waiting [.writeReg .dlen 1] State.reset).hostQueue = [.writeReg .dlen 1] ∧
    (waiting [.writeReg .inSize 0] State.reset).hostQueue = [.writeReg .inSize 0] ∧ 0 < 2 ^ Config.aw ∧
    (waiting [.writeReg .inSize (2 ^ Config.aw - 1)] State.reset).hostQueue = [.writeReg .inSize (2 ^ Config.aw - 1)] ∧
    2 ^ Config.aw - 1 < 2 ^ Config.aw ∧
    (waiting [.writeReg .inSize (2 ^ Config.aw)] State.reset).hostQueue = [.writeReg .inSize (2 ^ Config.aw)] :=
  have h := Nat.two_pow_pos Config.aw
  ⟨rfl, by decide, rfl, rfl, rfl, h, rfl, Nat.sub_lt h Nat.one_pos, rfl⟩

/-- `DLEN` where it is valid, before DONE and after NotThisFormat. -/
theorem test_witness_RegisterReadsReturnTheFields :
    (waiting [.readReg .ctrl] State.reset).hostQueue = [.readReg .ctrl] ∧
    (waiting [.readReg .stat] (finished [])).hostQueue = [.readReg .stat] ∧ (finished []).phase = .done ∧
    (waiting [.readReg .inSize] State.reset).hostQueue = [.readReg .inSize] ∧
    (waiting [.readReg .dlen] (finished [1#8])).hostQueue = [.readReg .dlen] ∧ (finished [1#8]).status = .ok ∧
    ({ finished [1#8] with status := .malformedStream } : State).status = .malformedStream ∧
    (waiting [.readReg .dlen] (phaseTwo 1#8 [])).hostQueue = [.readReg .dlen] ∧ (phaseTwo 1#8 []).phase ≠ .done ∧
    (waiting [.readReg .dlen] { finished [] with status := .notThisFormat }).status ≠ .ok ∧
    (waiting [.readReg .dlen] { finished [] with status := .notThisFormat }).status ≠ .malformedStream := by decide

theorem test_witness_PhaseIsReadableAtAnyTime :
    (waiting [.readReg .stat] (phaseTwo 1#8 [])).hostQueue = [.readReg .stat] := rfl

/-- The last index of the output, the first past it, a run that failed, a machine that has not run. -/
theorem test_witness_OutIsReadOnlyAsAResult :
    (waiting [.readOut 1] (finished [1#8, 2#8])).hostQueue = [.readOut 1] ∧ (finished [1#8, 2#8]).phase = .done ∧
    (finished [1#8, 2#8]).status = .ok ∧ 1 < (finished [1#8, 2#8]).dlen.toNat ∧
    (waiting [.readOut 2] (finished [1#8, 2#8])).hostQueue = [.readOut 2] ∧ (finished [1#8, 2#8]).dlen.toNat ≤ 2 ∧
    State.reset.phase ≠ .done ∧
    ({ finished [1#8] with status := .malformedStream } : State).status ≠ .ok := by decide

theorem test_witness_HostPlacesInputOutsideARun :
    (waiting [.writeIn 0 7#8] State.reset).hostQueue = [.writeIn 0 7#8] ∧
    (waiting [.writeIn 0 7#8] State.reset).memoryCanonical ∧ State.reset.phase = .idle ∧ (finished []).phase = .done ∧
    (waiting [.writeIn 0 7#8] (phaseTwo 1#8 [])).hostQueue = [.writeIn 0 7#8] ∧
    (waiting [.writeIn 0 7#8] (phaseTwo 1#8 [])).memoryCanonical ∧ (phaseTwo 1#8 []).phase = .expand ∧
    (launch []).phase = .header := by
  unfold State.memoryCanonical; decide

/-- Reset, START and another move, each from DONE. -/
theorem test_witness_DoneStaysUntilStartOrReset :
    (finished [1#8]).phase = .done ∧ Answers (step (waiting [.reset] (finished [1#8]))) ∧
    Answers (step (waiting [.writeReg .ctrl 1] (finished [1#8]))) ∧
    Answers (step (waiting [.readOut 0] (finished [1#8]))) ∧ Answers (step (finished [1#8])) :=
  ⟨rfl, ⟨_, rfl⟩, ⟨_, rfl⟩, ⟨_, rfl⟩, ⟨_, rfl⟩⟩

theorem test_witness_AbsentInputIsInvalidArgument :
    ({ launch [] with present := false } : State).hostQueue = [] ∧
    ({ launch [] with present := false } : State).phase = .header ∧
    ({ launch [] with present := false } : State).present = false := by decide

/-- `N = 0` and `N = 15`. -/
theorem test_witness_ShortInputIsTruncated :
    (launch []).hostQueue = [] ∧ (launch []).phase = .header ∧ (launch []).present = true ∧ (launch []).n = 0 ∧
    (launch (List.replicate 15 0x59#8)).phase = .header ∧ (launch (List.replicate 15 0x59#8)).present = true ∧
    (launch (List.replicate 15 0x59#8)).n = 15 := by decide

/-- `N = 16`; the first byte differs, or only the fourth. -/
theorem test_witness_WrongMagicIsNotThisFormat :
    let first := launch (0x79#8 :: (header 0#8 0#8 0#8 4#8).tail)
    let fourth := launch (0x59#8 :: 0x61#8 :: 0x7A#8 :: 0x31#8 :: List.replicate 12 0#8)
    first.hostQueue = [] ∧ first.phase = .header ∧ first.present = true ∧ 16 ≤ first.n ∧
    first.n ≤ Memory.filledFrom 0 first.inMem ∧ Memory.read .input first.inMem 0 ≠ Config.magic[0]? ∧
    fourth.hostQueue = [] ∧ fourth.phase = .header ∧ fourth.present = true ∧ 16 ≤ fourth.n ∧
    fourth.n ≤ Memory.filledFrom 0 fourth.inMem ∧ Memory.read .input fourth.inMem 3 ≠ Config.magic[3]? := by decide

/-- `N = 16`, `DLEN = 4294967295`. -/
theorem test_witness_GoodHeaderEntersPhaseTwo :
    let s := launch (header 0xFF#8 0xFF#8 0xFF#8 0xFF#8)
    s.hostQueue = [] ∧ s.phase = .header ∧ s.present = true ∧ 16 ≤ s.n ∧ s.n ≤ Memory.filledFrom 0 s.inMem ∧
    (∀ k, k < 4 → Memory.read .input s.inMem k = Config.magic[k]?) ∧
    Memory.read .input s.inMem 4 = some 0xFF#8 ∧ Memory.read .input s.inMem 5 = some 0xFF#8 ∧
    Memory.read .input s.inMem 6 = some 0xFF#8 ∧ Memory.read .input s.inMem 7 = some 0xFF#8 := by decide

/-- Two inputs of 17 bytes that differ in the reserved bytes at addresses 8 and 15. -/
theorem test_witness_ReservedHeaderBytesAreIgnored :
    let s := launch (header 0#8 0#8 0#8 1#8 ++ [0x80#8])
    let m := Memory.write .input (Memory.write .input s.inMem 8 0xFF#8) 15 0xFF#8
    s.hostQueue = [] ∧ s.phase = .header ∧ s.n ≤ Memory.filledFrom 0 s.inMem ∧ s.n ≤ Memory.filledFrom 0 m ∧ m ≠ s.inMem ∧
    ∀ a, a < 8 ∨ 16 ≤ a → Memory.read .input m a = Memory.read .input s.inMem a := by
  refine ⟨by decide, by decide, by decide, by decide, by decide, fun a ha => ?_⟩
  rw [read_write_other (wf_write (by decide)) (by omega), read_write_other (by decide) (by omega)]

theorem test_witness_HdrSetsUpTheRun : 16 ≤ (launch (header 0#8 0#8 0#8 4#8)).n := by decide

theorem test_witness_HdrLeavesTheRestAlone : Answers (exec (.hdr 4#32 0#64) (launch (header 0#8 0#8 0#8 4#8))) := ⟨_, rfl⟩

/-- `OOFF = DLEN`, with and without output. -/
theorem test_witness_LoopEndsWhenOutputIsComplete :
    let s := produced [7#8] (phaseTwo 1#8 [])
    s.hostQueue = [] ∧ s.phase = .expand ∧ s.stage = .loop ∧ s.dlen.toNat ≤ s.ooff ∧
    (phaseTwo 0#8 []).dlen.toNat ≤ (phaseTwo 0#8 []).ooff := by decide

theorem test_witness_LoopShiftsTheMask :
    (phaseTwo 1#8 []).hostQueue = [] ∧ (phaseTwo 1#8 []).phase = .expand ∧ (phaseTwo 1#8 []).stage = .loop ∧
    (phaseTwo 1#8 []).ooff < (phaseTwo 1#8 []).dlen.toNat := by decide

/-- `MASK = 1` and `MASK = 0`; the last payload byte there is, and none. -/
theorem test_witness_ControlFetchReloadsTheWindow :
    let s := { phaseTwo 1#8 [0x80#8] with mask := 1#16 }
    let e := phaseTwo 1#8 []
    s.hostQueue = [] ∧ s.phase = .expand ∧ s.stage = .loop ∧ s.ooff < s.dlen.toNat ∧ s.mask.toNat / 2 = 0 ∧
    s.ioff < s.psize ∧ Memory.read .input s.inMem (16 + s.ioff) = some 0x80#8 ∧
    e.hostQueue = [] ∧ e.phase = .expand ∧ e.stage = .loop ∧ e.ooff < e.dlen.toNat ∧ e.mask.toNat / 2 = 0 ∧
    e.psize ≤ e.ioff := by decide

/-- The first bit set and the last bit clear. -/
theorem test_witness_ControlBitSelectsTheToken :
    let s := due 0x80#8 0x0080#16 (phaseTwo 1#8 [0x80#8, 0x11#8])
    let u := due 0xFE#8 0x0001#16 (phaseTwo 1#8 [0x80#8, 0x11#8])
    s.hostQueue = [] ∧ s.phase = .expand ∧ s.stage = .token ∧ (s.header &&& s.mask.setWidth 8) ≠ 0#8 ∧
    decode .literal (s.window .literal) = .ok (.lit 0x80#8, []) ∧
    u.hostQueue = [] ∧ u.phase = .expand ∧ u.stage = .token ∧ (u.header &&& u.mask.setWidth 8) = 0#8 ∧
    decode .backref (u.window .backref) = .ok (.refs 8#4 0x011#12, [0#8]) := by decide

/-- The first, the seventh and the last bit of a control byte. -/
theorem test_witness_ControlBitsGoFromMostSignificantDown :
    let at_ := fun m : Mask => ({ phaseTwo 1#8 [] with mask := m } : State)
    (at_ 0x80#16).mask = 0x0080#16 >>> 0 ∧ (at_ 0x02#16).mask = 0x0080#16 >>> 6 ∧ (at_ 0x01#16).mask = 0x0080#16 >>> 7 ∧
    (at_ 0x01#16).hostQueue = [] ∧ (at_ 0x01#16).phase = .expand ∧ (at_ 0x01#16).stage = .loop ∧
    (at_ 0x01#16).ooff < (at_ 0x01#16).dlen.toNat := by decide

theorem test_witness_CtrlLoadsTheWindow : (phaseTwo 1#8 [0#8]).ioff < (phaseTwo 1#8 [0#8]).psize := by decide

theorem test_witness_CtrlWithoutPayloadIsMalformed : (phaseTwo 1#8 []).psize ≤ (phaseTwo 1#8 []).ioff := by decide

theorem test_witness_CtrlLeavesTheRestAlone :
    Answers (exec (.ctrl 0xFF#8) (phaseTwo 1#8 [0#8])) ∧ Answers (exec (.ctrl 0xFF#8) (phaseTwo 1#8 [])) :=
  ⟨⟨_, rfl⟩, ⟨_, rfl⟩⟩

/-- The last payload byte and the last byte of output. -/
theorem test_witness_LitCopiesOneByte :
    let s := produced [1#8] { phaseTwo 2#8 [0xC0#8, 0x11#8] with ioff := 1 }
    s.memoryCanonical ∧ s.ioff + 1 = s.psize ∧ s.ooff + 1 = s.dlen.toNat := by
  unfold State.memoryCanonical; decide

theorem test_witness_LitWithoutPayloadIsMalformed :
    (phaseTwo 1#8 []).psize ≤ (phaseTwo 1#8 []).ioff ∧ (phaseTwo 1#8 []).ooff < (phaseTwo 1#8 []).dlen.toNat := by decide

theorem test_witness_LitAtTheEndFinishes :
    (produced [1#8] (phaseTwo 1#8 [])).ooff = (produced [1#8] (phaseTwo 1#8 [])).dlen.toNat := by decide

/-- A literal that copies, one that ends the run, one that finds no payload. -/
theorem test_witness_LitLeavesTheRestAlone :
    (phaseTwo 1#8 [0x80#8]).memoryCanonical ∧ Answers (exec (.lit 5#8) (phaseTwo 1#8 [0x80#8])) ∧
    (phaseTwo 0#8 []).memoryCanonical ∧ Answers (exec (.lit 5#8) (phaseTwo 0#8 [])) ∧
    (phaseTwo 1#8 []).memoryCanonical ∧ Answers (exec (.lit 5#8) (phaseTwo 1#8 [])) := by
  refine ⟨?_, ⟨_, rfl⟩, ?_, ⟨_, rfl⟩, ?_, ⟨_, rfl⟩⟩ <;> · unfold State.memoryCanonical; decide

/-- The shortest and the longest short copy, the payload, the source and the room all used to the last byte. -/
theorem test_witness_RefsCopiesThePattern :
    let s := produced [1#8, 2#8] (phaseTwo 5#8 [0x10#8, 0x01#8])
    let u := produced [1#8] (phaseTwo 18#8 [0xF0#8, 0x00#8])
    (1#4 ≠ 0#4 ∧ s.memoryCanonical ∧ s.ioff + 2 = s.psize ∧ (1#12).toNat + 1 = s.ooff ∧
      s.ooff + ((1#4).toNat + 2) = s.dlen.toNat) ∧
    15#4 ≠ 0#4 ∧ u.memoryCanonical ∧ u.ioff + 2 = u.psize ∧ (0#12).toNat + 1 = u.ooff ∧
      u.ooff + ((15#4).toNat + 2) = u.dlen.toNat := by
  unfold State.memoryCanonical; decide

/-- The shortest and the longest long copy, the payload, the source and the room all used to the last byte. -/
theorem test_witness_ReflCopiesThePattern :
    let s := produced [1#8] (phaseTwo 19#8 [0x00#8, 0x00#8, 0x00#8])
    let u := { produced [1#8] (phaseTwo 0#8 [0x00#8, 0x00#8, 0xFF#8]) with dlen := 274#32 }
    (s.memoryCanonical ∧ s.ioff + 3 = s.psize ∧ (0#12).toNat + 1 = s.ooff ∧
      s.ooff + ((0#8).toNat + 18) = s.dlen.toNat) ∧
    u.memoryCanonical ∧ u.ioff + 3 = u.psize ∧ (0#12).toNat + 1 = u.ooff ∧
      u.ooff + ((0xFF#8).toNat + 18) = u.dlen.toNat := by
  unfold State.memoryCanonical; decide

/-- One payload byte short, one byte before the start of the output, one byte too long: each alone. -/
theorem test_witness_RefsIsMalformedOutOfBounds :
    let p := produced [1#8] (phaseTwo 4#8 [0x10#8])
    let q := produced [1#8] (phaseTwo 4#8 [0x10#8, 0x01#8])
    let r := produced [1#8] (phaseTwo 3#8 [0x10#8, 0x00#8])
    1#4 ≠ 0#4 ∧ p.psize + 1 = p.ioff + 2 ∧ q.ooff + 1 = (1#12).toNat + 1 ∧
    r.dlen.toNat + 1 = r.ooff + ((1#4).toNat + 2) := by decide

/-- The same for the long form. -/
theorem test_witness_ReflIsMalformedOutOfBounds :
    let p := produced [1#8] (phaseTwo 19#8 [0x00#8, 0x00#8])
    let q := produced [1#8] (phaseTwo 19#8 [0x00#8, 0x01#8, 0x00#8])
    let r := produced [1#8] (phaseTwo 18#8 [0x00#8, 0x00#8, 0x00#8])
    p.psize + 1 = p.ioff + 3 ∧ q.ooff + 1 = (1#12).toNat + 1 ∧
    r.dlen.toNat + 1 = r.ooff + ((0#8).toNat + 18) := by decide

/-- A short and a long copy that complete, and one that raises. -/
theorem test_witness_BackrefsLeaveTheRestAlone :
    let s := produced [1#8] (phaseTwo 20#8 [0x10#8, 0x00#8, 0x00#8])
    copyOperands (.refs 1#4 0#12) = some (0#12, 3) ∧ s.memoryCanonical ∧ Answers (exec (.refs 1#4 0#12) s) ∧
    copyOperands (.refl 0#12 0#8) = some (0#12, 18) ∧ Answers (exec (.refl 0#12 0#8) s) ∧
    Answers (exec (.refs 1#4 9#12) s) := by
  refine ⟨by decide, by unfold State.memoryCanonical; decide, ⟨_, rfl⟩, by decide, ⟨_, rfl⟩, ⟨_, rfl⟩⟩

/-- A copy of three bytes from one behind. -/
theorem test_witness_OverlapLaw :
    let s := produced [5#8] (phaseTwo 4#8 [])
    s.memoryCanonical ∧ 0 < 1 ∧ s.pos + 1 = s.ooff ∧ 2 < 3 ∧ (0 < s.ooff ∨ s.ooff + 3 ≤ 0) ∧
    (4 < s.ooff ∨ s.ooff + 3 ≤ 4) := by
  unfold State.memoryCanonical; decide

theorem test_witness_BulkPrefixCopyIsTheSame :
    let s := { produced [5#8, 6#8] (phaseTwo 4#8 []) with gap := 2 }
    s.memoryCanonical ∧ s.pos + s.gap = s.ooff := by
  unfold State.memoryCanonical; decide

/-- `k` listed bytes of value 1 from address `a` on. -/
def onesFrom (a : Nat) : Nat → Memory
  | 0 => []
  | k + 1 => (a, 1#8) :: onesFrom (a + 1) k

theorem onesFrom_read (sp : Config.Space) (k : Nat) : ∀ a p, a ≤ p → p < a + k →
    Memory.read sp (onesFrom a k) p = some 1#8 := by
  induction k with
  | zero => intro a p h1 h2; omega
  | succ k ih =>
    intro a p h1 h2
    unfold onesFrom Memory.read
    split
    · rfl
    · exact ih (a + 1) p (by omega) (by omega)

theorem onesFrom_wf (sp : Config.Space) (h : Config.unlisted sp ≠ some 1#8) (k : Nat) :
    Memory.wf sp (onesFrom 0 k) = true := by
  have rises : ∀ k a, Memory.risesFrom a (onesFrom a k) = true := by
    intro k
    induction k with
    | zero => intro a; rfl
    | succ k ih => intro a; simp [onesFrom, Memory.risesFrom, ih]
  have least : ∀ k a, Memory.minimal sp (onesFrom a k) = true := by
    intro k
    induction k with
    | zero => intro a; rfl
    | succ k ih => intro a; simpa [onesFrom, Memory.minimal, h] using ih (a + 1)
  simp [Memory.wf, rises, least]

/-- 4096 bytes of value 1 have been produced. -/
def fullWindow : State :=
  { phaseTwo 4#8 [] with outMem := onesFrom 0 4096, histMem := onesFrom 0 4096, ooff := 4096 }

theorem fullWindow_canonical : fullWindow.memoryCanonical :=
  ⟨by decide, onesFrom_wf _ (by decide) _, onesFrom_wf _ (by decide) _⟩

theorem fullWindow_view : fullWindow.historyView := by
  intro p hp _
  have hp' : p < 4096 := hp
  have h1 : Memory.read .history (onesFrom 0 4096) (p % 4096) = some 1#8 := onesFrom_read _ _ 0 _ (by omega) (by omega)
  have h2 : Memory.read .output (onesFrom 0 4096) p = some 1#8 := onesFrom_read _ _ 0 _ (by omega) (by omega)
  simp [State.histByte, State.outByte, histSlot, fullWindow, Config.window, h1, h2]

/-- `GAP = 4096`, where source and destination share a slot, and `GAP = 1`. -/
theorem test_witness_CircularBufferCopyIsTheSame :
    let s := { fullWindow with gap := 4096, pos := 0 }
    let u := { fullWindow with gap := 1, pos := 4095 }
    (s.memoryCanonical ∧ s.historyView ∧ 0 < s.gap ∧ s.gap ≤ 4096 ∧ s.pos + s.gap = s.ooff) ∧
    u.memoryCanonical ∧ u.historyView ∧ 0 < u.gap ∧ u.gap ≤ 4096 ∧ u.pos + u.gap = u.ooff := by
  refine ⟨⟨fullWindow_canonical, fullWindow_view, ?_, ?_, ?_⟩, fullWindow_canonical, fullWindow_view, ?_, ?_, ?_⟩ <;>
    decide

/-- The header record, the control byte, a literal and a back-reference, each where the core fetches it. -/
theorem test_witness_StepRunsTheDecodedToken :
    let h := launch (header 0#8 0#8 0#8 4#8)
    let c := { phaseTwo 4#8 [0xF0#8] with stage := .control }
    let l := due 0x80#8 0x0080#16 (phaseTwo 4#8 [0x11#8])
    let r := due 0x7F#8 0x0080#16 (phaseTwo 4#8 [0x10#8, 0x00#8])
    (h.hostQueue = [] ∧ h.phase = .header ∧ h.present = true ∧ 16 ≤ h.n ∧ h.n ≤ Memory.filledFrom 0 h.inMem ∧
      decode .header (h.window .header) = .ok (.hdr 4#32 0#64, [])) ∧
    (c.hostQueue = [] ∧ c.phase = .expand ∧ c.stage = .control ∧
      decode .control (c.window .control) = .ok (.ctrl 0xF0#8, [])) ∧
    (l.hostQueue = [] ∧ l.phase = .expand ∧ l.stage = .token ∧ l.tokenMode = .literal ∧
      decode l.tokenMode (l.window l.tokenMode) = .ok (.lit 0x11#8, [])) ∧
    r.hostQueue = [] ∧ r.phase = .expand ∧ r.stage = .token ∧ r.tokenMode = .backref ∧
      decode r.tokenMode (r.window r.tokenMode) = .ok (.refs 1#4 0#12, [0#8]) := by decide

/-- A control byte, a literal, a short and a long back-reference, each ending at the last payload byte. -/
theorem test_witness_StepRunsTheTokenStoredAtThePayloadOffset :
    let c := { phaseTwo 4#8 [0xF0#8] with stage := .control }
    let l := due 0x80#8 0x0080#16 (phaseTwo 4#8 [0x11#8])
    let r := due 0x7F#8 0x0080#16 (phaseTwo 4#8 [0x10#8, 0x00#8])
    let b := due 0x7F#8 0x0080#16 (phaseTwo 4#8 [0x00#8, 0x01#8, 0xFF#8])
    (c.ioff + 1 = c.psize ∧ Memory.read .input c.inMem 16 = (encode (.ctrl 0xF0#8))[0]? ∧ c.stage = .control) ∧
    (l.ioff + 1 = l.psize ∧ Memory.read .input l.inMem 16 = (encode (.lit 0x11#8))[0]? ∧ l.stage = .token ∧
      l.cbit = true) ∧
    (r.ioff + 2 = r.psize ∧ (∀ k, k < 2 → Memory.read .input r.inMem (16 + 0 + k) = (encode (.refs 1#4 0#12))[k]?) ∧
      r.stage = .token ∧ r.cbit = false) ∧
    b.ioff + 3 = b.psize ∧ (∀ k, k < 3 → Memory.read .input b.inMem (16 + 0 + k) = (encode (.refl 1#12 0xFF#8))[k]?) ∧
      b.stage = .token ∧ b.cbit = false := by decide

/-- The payload ends before the first, the second and the third byte of a back-reference; the padding differs. -/
theorem test_witness_PaddingBytesAreNeverUsed :
    Mode.backref ≠ .header ∧
    decode .backref [0x10#8, 0#8, 0#8] = .ok (.refs 1#4 0#12, [0#8]) ∧
    decode .backref [0x00#8, 0xFF#8, 1#8] = .ok (.refl 0x0FF#12 1#8, []) ∧
    decode .backref [0x10#8, 0xFF#8, 1#8] = .ok (.refs 1#4 0x0FF#12, [1#8]) ∧
    decode .backref [0x00#8, 0xFF#8, 2#8] = .ok (.refl 0x0FF#12 2#8, []) ∧
    ¬ (phaseTwo 9#8 []).ioff < (phaseTwo 9#8 []).psize ∧
    (phaseTwo 9#8 [0x10#8]).ioff + 1 = (phaseTwo 9#8 [0x10#8]).psize ∧
    (phaseTwo 9#8 [0#8, 0xFF#8]).ioff + 2 = (phaseTwo 9#8 [0#8, 0xFF#8]).psize := by decide

theorem test_witness_EveryStepKeepsTheInvariant :
    (phaseTwo 1#8 [0x80#8, 0x11#8]).Inv ∧ Answers (step (phaseTwo 1#8 [0x80#8, 0x11#8])) :=
  ⟨test_witness_invariant, _, rfl⟩

/-- A mask that shifts to zero and one that stays one-hot. -/
theorem test_witness_MaskStaysOneHot :
    let s := { phaseTwo 1#8 [] with mask := 1#16 }
    let u := due 0x80#8 0x0002#16 (phaseTwo 1#8 [0x11#8])
    s.maskLegal ∧ Answers (step s) ∧ u.maskLegal ∧ Answers (step u) := by
  refine ⟨?_, ⟨_, rfl⟩, ?_, ⟨_, rfl⟩⟩ <;> · unfold State.maskLegal; decide

theorem test_witness_HistoryMirrorsTheOutput :
    let s := due 0x80#8 0x0080#16 (phaseTwo 1#8 [0x11#8])
    s.memoryCanonical ∧ s.historyView ∧ Answers (step s) :=
  ⟨by unfold State.memoryCanonical; decide, fun p hp => absurd hp (Nat.not_lt_zero p), _, rfl⟩

/-- Each kind of transition: none, START, into Phase 2, to DONE from Phase 1 and from Phase 2, reset. -/
theorem test_witness_PhaseMovesOnlyAsListed :
    Answers (step State.reset) ∧ Answers (step (waiting [.writeReg .ctrl 1] State.reset)) ∧
    Answers (step (launch (header 0#8 0#8 0#8 4#8))) ∧ Answers (step (launch [])) ∧ Answers (step (phaseTwo 0#8 [])) ∧
    Answers (step (waiting [.reset] (phaseTwo 1#8 []))) :=
  ⟨⟨_, rfl⟩, ⟨_, rfl⟩, ⟨_, rfl⟩, ⟨_, rfl⟩, ⟨_, rfl⟩, ⟨_, rfl⟩⟩

theorem test_witness_CoreNeverWritesTheInput :
    (launch (header 0#8 0#8 0#8 4#8)).hostQueue = [] ∧ Answers (step (launch (header 0#8 0#8 0#8 4#8))) ∧
    (phaseTwo 1#8 []).hostQueue = [] ∧ Answers (step (phaseTwo 1#8 [])) :=
  ⟨rfl, ⟨_, rfl⟩, rfl, ⟨_, rfl⟩⟩

/-- A literal into the last byte of the output. -/
theorem test_witness_OutputIsWrittenInOrderWithinBounds :
    let s := due 0x80#8 0x0080#16 (produced [1#8] (phaseTwo 2#8 [0x11#8]))
    s.hostQueue = [] ∧ s.phase = .expand ∧ s.memoryCanonical ∧ s.ooff ≤ s.dlen.toNat ∧ Answers (step s) :=
  ⟨rfl, rfl, by unfold State.memoryCanonical; decide, by decide, _, rfl⟩

/-- The last payload byte, and none left. -/
theorem test_witness_PayloadCounterOnlyAdvances :
    let s := due 0x80#8 0x0080#16 (phaseTwo 2#8 [0x11#8])
    let e := { phaseTwo 2#8 [0x11#8] with ioff := 1 }
    s.hostQueue = [] ∧ s.phase = .expand ∧ s.ioff ≤ s.psize ∧ Answers (step s) ∧
    e.hostQueue = [] ∧ e.phase = .expand ∧ e.ioff ≤ e.psize ∧ Answers (step e) :=
  ⟨rfl, rfl, by decide, ⟨_, rfl⟩, rfl, rfl, by decide, _, rfl⟩

/-- A literal, a back-reference, and a token that ends the run. -/
theorem test_witness_EveryTokenEndsOrProduces :
    let l := due 0x80#8 0x0080#16 (phaseTwo 2#8 [0x11#8])
    let r := due 0x00#8 0x0080#16 (produced [1#8] (phaseTwo 4#8 [0x10#8, 0x00#8]))
    let e := due 0x00#8 0x0080#16 (phaseTwo 4#8 [0x10#8, 0x00#8])
    l.hostQueue = [] ∧ l.phase = .expand ∧ l.stage = .token ∧ Answers (step l) ∧
    r.hostQueue = [] ∧ r.phase = .expand ∧ r.stage = .token ∧ Answers (step r) ∧
    e.hostQueue = [] ∧ e.phase = .expand ∧ e.stage = .token ∧ Answers (step e) :=
  ⟨rfl, rfl, rfl, ⟨_, rfl⟩, rfl, rfl, rfl, ⟨_, rfl⟩, rfl, rfl, rfl, _, rfl⟩

theorem test_witness_NoPayloadStopsTheCore :
    (phaseTwo 1#8 [0x80#8, 0x11#8]).Inv ∧ (phaseTwo 1#8 [0x80#8, 0x11#8]).hostQueue = [] ∧
    (phaseTwo 1#8 [0x80#8, 0x11#8]).phase = .expand :=
  ⟨test_witness_invariant, rfl, rfl⟩

theorem test_witness_EveryRunEnds :
    (phaseTwo 1#8 [0x80#8, 0x11#8]).Inv ∧ (phaseTwo 1#8 [0x80#8, 0x11#8]).hostQueue = [] ∧
    (phaseTwo 1#8 [0x80#8, 0x11#8]).phase = .expand :=
  ⟨test_witness_invariant, rfl, rfl⟩

theorem test_witness_OkMeansTheOutputIsComplete :
    let s := produced [1#8] (phaseTwo 1#8 [])
    s.hostQueue = [] ∧ s.phase = .expand ∧ s.ooff ≤ s.dlen.toNat ∧
    after (step s) (fun t => (t.phase, t.status)) = some (.done, .ok) := by decide

/-- A fresh machine and one with leftovers of an earlier run, started on the same input. -/
theorem test_witness_ARunDependsOnlyOnItsInput :
    let s := launch (header 0#8 0#8 0#8 1#8 ++ [0x80#8, 0x11#8])
    let u := due 0xAA#8 0x0008#16 { produced [1#8, 2#8] s with dlen := 9#32, status := .malformedStream, len := 7 }
    s.hostQueue = [] ∧ u.hostQueue = [] ∧ s.phase = .header ∧ u.phase = .header ∧ u.inMem = s.inMem ∧ u.n = s.n ∧
    u.present = s.present ∧ Answers (Sys2Proof.core.run 1 s) :=
  ⟨rfl, rfl, rfl, rfl, rfl, rfl, rfl, _, rfl⟩

end Sys2Proof.Tests
end

section
/-! PROOFS for the state family (spec/10_state.md): what a step does to the output, to the input and to the control
window, the invariant of the machine, the host's registers, and the dependence of a run on its input alone. -/

namespace Sys2Proof.Machine

/-! ### The output part of a state: OUT, HIST and the write cursor -/

/-- OUT, HIST and the write cursor are the same. -/
structure SameOut (s t : State) : Prop where
  out : t.outMem = s.outMem
  hist : t.histMem = s.histMem
  fill : t.histFill = s.histFill
  ooff : t.ooff = s.ooff

theorem SameOut.outByte {s t : State} (h : SameOut s t) (a : Nat) : t.outByte a = s.outByte a := by
  simp only [State.outByte, h.out]

theorem SameOut.histByte {s t : State} (h : SameOut s t) (j : Nat) : t.histByte j = s.histByte j := by
  simp only [State.histByte, h.hist, h.fill]

/-- What is written by `emitAll` depends on the output part alone. -/
theorem SameOut.emitAll {s t : State} (h : SameOut s t) (vs : List Byte) :
    SameOut (emitAll vs s) (emitAll vs t) := by
  induction vs generalizing s t with
  | nil => exact h
  | cons v vs ih => exact ih ⟨by simp [h.out, h.ooff], by simp [h.hist, h.ooff], h.fill, by simp [h.ooff]⟩

/-- A copy writes as many bytes as its length, one after the other (R112). -/
theorem copyBytes_eq_emitAll (k : Nat) (s : State) : ∃ vs, vs.length = k ∧ copyBytes k s = emitAll vs s := by
  induction k generalizing s with
  | zero => exact ⟨[], rfl, rfl⟩
  | succ k ih =>
    obtain ⟨vs, hlen, heq⟩ := ih (copyByte s)
    exact ⟨s.outByte s.pos :: vs, by rw [List.length_cons, hlen], heq⟩

/-- The bytes of OUT a copy writes depend on OUT and on its two cursors alone (R112). -/
theorem copyBytes_outMem_congr (k : Nat) {s u : State} (hout : u.outMem = s.outMem) (hooff : u.ooff = s.ooff)
    (hpos : u.pos = s.pos) : (copyBytes k u).outMem = (copyBytes k s).outMem := by
  induction k generalizing s u with
  | zero => exact hout
  | succ k ih =>
    refine ih (s := copyByte s) (u := copyByte u) ?_ (by simp [hooff]) (by simp [hpos])
    simp only [copyByte_outMem, State.outByte, hout, hooff, hpos]

/-! ### Everything a step can do in EXPAND -/

/-- The run has ended in Phase 2: with MalformedStream, or with OK once the output is complete. The status, the phase,
`IOFF` and the operand registers are all that may have changed (R96, R126). -/
structure RunEnded (s t : State) : Prop where
  phase : t.phase = .done
  status : t.status = .malformedStream ∨ (t.status = .ok ∧ s.dlen.toNat ≤ s.ooff)
  host : SameHostSide s t
  bounds : SameBounds s t
  window : SameWindow s t
  out : SameOut s t
  stage : t.stage = s.stage
  least : s.ioff ≤ t.ioff
  most : t.ioff ≤ s.ioff + 3
  within : s.ioff ≤ s.psize → t.ioff ≤ t.psize

theorem RefRaised.runEnded {s t : State} (h : RefRaised s t) : RunEnded s t :=
  ⟨h.phase, .inl h.status, h.host, h.bounds, h.window, ⟨h.out, h.hist, h.fill, h.ooff⟩, h.stage, h.least, h.most,
    h.within⟩

theorem runEnded_finishOk {s : State} (h : s.dlen.toNat ≤ s.ooff) : RunEnded s (finishOk s) := by
  constructor
  case out => exact ⟨rfl, rfl, rfl, rfl⟩
  all_goals simp [SameHostSide, SameBounds, SameWindow, h]

theorem runEnded_payloadOverrun (s : State) : RunEnded s (raise .payloadOverrun s) := by
  constructor
  case out => exact ⟨rfl, rfl, rfl, rfl⟩
  all_goals simp [SameHostSide, SameBounds, SameWindow, Reason.signal]

/-- A token has produced output and its iteration is over: 1 to 273 bytes from the write cursor on, at most `DLEN` in
all, for 1 to 3 bytes of payload (R94, R97). -/
structure Produced (s t : State) : Prop where
  phase : t.phase = s.phase
  status : t.status = s.status
  host : SameHostSide s t
  bounds : SameBounds s t
  window : SameWindow s t
  stage : t.stage = .loop
  least : s.ioff + 1 ≤ t.ioff
  most : t.ioff ≤ s.ioff + 3
  within : t.ioff ≤ s.psize
  grows : s.ooff + 1 ≤ t.ooff ∧ t.ooff ≤ s.ooff + 273
  room : t.ooff ≤ s.dlen.toNat
  out : ∃ vs, SameOut (emitAll vs s) t

theorem produced_literal (v : Byte) {s : State} (hp : s.ioff < s.psize) (hd : s.ooff < s.dlen.toNat) :
    Produced s (endIteration (emit v (advance s))) := by
  constructor
  case out => exact ⟨[v], rfl, rfl, rfl, rfl⟩
  case within => exact hp
  case room => exact hd
  all_goals simp [SameHostSide, SameBounds, SameWindow]

/-- A copy after registers outside the output part were set writes bytes to the output part it began with. -/
theorem endIteration_copyBytes_out {s u : State} (k : Nat) (h : SameOut s u) :
    ∃ vs, SameOut (emitAll vs s) (endIteration (copyBytes k u)) := by
  obtain ⟨vs, -, heq⟩ := copyBytes_eq_emitAll k u
  rw [heq]
  obtain ⟨hout, hhist, hfill, hooff⟩ := h.emitAll vs
  exact ⟨vs, hout, hhist, hfill, hooff⟩

theorem produced_shortDone {n : Nibble} {dist : Dist} {s : State} (hp : s.ioff + 2 ≤ s.psize)
    (hr : s.ooff + shortLen n ≤ s.dlen.toNat) : Produced s (shortDone n dist s) := by
  have hlen := shortLen_le n
  constructor
  case out => exact endIteration_copyBytes_out _ ⟨rfl, rfl, rfl, rfl⟩
  case within => simpa using hp
  case room => simpa using hr
  case grows => simp; omega
  all_goals simp [SameHostSide, SameBounds, SameWindow]

theorem produced_longDone {dist : Dist} {m : Byte} {s : State} (hp : s.ioff + 3 ≤ s.psize)
    (hr : s.ooff + longLen m ≤ s.dlen.toNat) : Produced s (longDone dist m s) := by
  have hlen := longLen_le m
  constructor
  case out => exact endIteration_copyBytes_out _ ⟨rfl, rfl, rfl, rfl⟩
  case within => simpa using hp
  case room => simpa using hr
  case grows => simp; omega
  all_goals simp [SameHostSide, SameBounds, SameWindow]

/-- What the core can do in one step of EXPAND. -/
inductive ExpandCase (s t : State) : Prop where
  /-- The run has ended (R96, R126). -/
  | ended (h : RunEnded s t)
  /-- The loop guard shifted the mask (R91). -/
  | shifted (hs : s.stage = .loop) (hd : s.ooff < s.dlen.toNat)
      (ht : t = { s with
        mask := shiftMask s.mask, stage := if shiftMask s.mask = 0#16 then .control else .token })
  /-- A control byte was loaded (R92). -/
  | loaded (hs : s.stage = .control) (hp : s.ioff < s.psize) (c : Byte) (ht : t = loadWindow c (advance s))
  /-- A token has produced output (R97). -/
  | produced (hs : s.stage = .token) (h : Produced s t)

/-- Everything a core step can do in EXPAND. -/
theorem CoreCase.inExpand {s t : State} (h : CoreCase s t) (hp : s.phase = .expand) : ExpandCase s t := by
  cases h with
  | rest hrest _ => simp [hp] at hrest
  | guard hhdr => simp [hp] at hhdr
  | hdr hhdr => simp [hp] at hhdr
  | loop _ hs ht =>
    rcases Nat.lt_or_ge s.ooff s.dlen.toNat with hd | hd
    · exact .shifted hs hd (ht.trans (loopGuard_shift hd))
    · exact .ended (ht.trans (loopGuard_done hd) ▸ runEnded_finishOk hd)
  | ctrl _ hs c h =>
    rcases execCtrl_next h with ⟨hp, rfl⟩ | ⟨-, rfl⟩
    · exact .loaded hs hp c rfl
    · exact .ended (runEnded_payloadOverrun s)
  | lit _ hs v h =>
    rcases execLit_next h with ⟨hd, rfl⟩ | ⟨hd, hp, rfl⟩ | ⟨-, -, rfl⟩
    · exact .ended (runEnded_finishOk hd)
    · exact .produced hs (produced_literal v hp hd)
    · exact .ended (runEnded_payloadOverrun s)
  | refs _ hs n dist h =>
    rcases execRefs_next h with ⟨hp, -, hr, rfl⟩ | ⟨hraised, -⟩
    · exact .produced hs (produced_shortDone hp hr)
    · exact .ended hraised.runEnded
  | refl _ hs dist m h =>
    rcases execRefl_next h with ⟨hp, -, hr, rfl⟩ | hraised
    · exact .produced hs (produced_longDone hp hr)
    · exact .ended hraised.runEnded

theorem ExpandCase.host {s t : State} (h : ExpandCase s t) : SameHostSide s t := by
  cases h with
  | ended h => exact h.host
  | shifted _ _ ht => subst ht; exact ⟨rfl, rfl, rfl, rfl, rfl, rfl, rfl, rfl⟩
  | loaded _ _ _ ht => subst ht; exact ⟨rfl, rfl, rfl, rfl, rfl, rfl, rfl, rfl⟩
  | produced _ h => exact h.host

theorem ExpandCase.bounds {s t : State} (h : ExpandCase s t) : SameBounds s t := by
  cases h with
  | ended h => exact h.bounds
  | shifted _ _ ht => subst ht; exact ⟨rfl, rfl⟩
  | loaded _ _ _ ht => subst ht; exact ⟨rfl, rfl⟩
  | produced _ h => exact h.bounds

/-- From EXPAND a core step stays there or ends the run (R15). -/
theorem ExpandCase.phase {s t : State} (h : ExpandCase s t) : t.phase = s.phase ∨ t.phase = .done := by
  cases h with
  | ended h => exact .inr h.phase
  | shifted _ _ ht => subst ht; exact .inl rfl
  | loaded _ _ _ ht => subst ht; exact .inl rfl
  | produced _ h => exact .inl h.phase

/-- In EXPAND the payload counter advances by at most three and stays within `PSIZE` (R20). -/
theorem ExpandCase.ioff {s t : State} (h : ExpandCase s t) (hp : s.ioff ≤ s.psize) :
    s.ioff ≤ t.ioff ∧ t.ioff ≤ s.ioff + 3 ∧ t.ioff ≤ s.psize := by
  cases h with
  | ended h => exact ⟨h.least, h.most, h.bounds.2 ▸ h.within hp⟩
  | shifted _ _ ht => subst ht; exact ⟨Nat.le_refl _, Nat.le_add_right _ _, hp⟩
  | loaded _ hlt _ ht => subst ht; simp only [loadWindow_ioff, advance_ioff]; omega
  | produced _ h => exact ⟨Nat.le_of_succ_le h.least, h.most, h.within⟩

/-- In EXPAND the write cursor stays within `DLEN` (R21). -/
theorem ExpandCase.ooff {s t : State} (h : ExpandCase s t) (hd : s.ooff ≤ s.dlen.toNat) : t.ooff ≤ s.dlen.toNat := by
  cases h with
  | ended h => exact h.out.ooff ▸ hd
  | shifted _ _ ht => subst ht; exact hd
  | loaded _ _ _ ht => subst ht; exact hd
  | produced _ h => exact h.room

/-- In EXPAND a step writes some bytes, perhaps none, from the write cursor on, and nothing else of OUT and HIST
(R44, R50). -/
theorem ExpandCase.output {s t : State} (h : ExpandCase s t) : ∃ vs, SameOut (emitAll vs s) t := by
  cases h with
  | ended h => exact ⟨[], h.out⟩
  | shifted _ _ ht => subst ht; exact ⟨[], rfl, rfl, rfl, rfl⟩
  | loaded _ _ _ ht => subst ht; exact ⟨[], rfl, rfl, rfl, rfl⟩
  | produced _ h => exact h.out

/-- What the core can do in one step, phase by phase. -/
inductive PhaseCase (s t : State) : Prop where
  /-- IDLE or DONE: nothing (R130, R140). -/
  | rest (hp : s.phase = .idle ∨ s.phase = .done) (ht : t = s)
  /-- HEADER: a guard or the magic check raised (R81, R82, R83). -/
  | guard (hp : s.phase = .header) (r : Reason) (hr : r = .absentInput ∨ r = .shortHeader ∨ r = .badMagic)
      (ht : t = raise r s)
  /-- HEADER: HDR ran (R88). -/
  | hdr (hp : s.phase = .header) (hpres : s.present = true) (hn : Config.hdrSize ≤ s.n)
      (hf : s.n ≤ Memory.filledFrom 0 s.inMem) (dlen : Length32)
      (ht : t = enterExpand { s with dlen := dlen, psize := s.n - Config.hdrSize })
  /-- EXPAND: one part of an iteration (R94). -/
  | expand (hp : s.phase = .expand) (h : ExpandCase s t)

theorem CoreCase.byPhase {s t : State} (h : CoreCase s t) : PhaseCase s t := by
  by_cases hp : s.phase = .expand
  · exact .expand hp (h.inExpand hp)
  · cases h with
    | rest hrest ht => exact .rest hrest ht
    | guard hhdr r hr ht => exact .guard hhdr r hr ht
    | hdr hhdr hpres hn hf dlen ht => exact .hdr hhdr hpres hn hf dlen ht
    | loop h => exact absurd h hp
    | ctrl h => exact absurd h hp
    | lit h => exact absurd h hp
    | refs h => exact absurd h hp
    | refl h => exact absurd h hp

/-- Everything a step can do: the host's move on the state without it, or the core's part of its phase. -/
theorem step_byPhase {s t : State} (h : step s = .next t) :
    (∃ m rest, s.hostQueue = m :: rest ∧ HostCase m { s with hostQueue := rest } t) ∨
    (s.hostQueue = [] ∧ PhaseCase s t) :=
  (step_cases h).imp_right fun ⟨hq, hcore⟩ => ⟨hq, hcore.byPhase⟩

/-! ### The input side under a core step -/

/-- What a run reads and what the host still has to say are the same. -/
structure SameInput (s t : State) : Prop where
  inMem : t.inMem = s.inMem
  inSize : t.inSize = s.inSize
  n : t.n = s.n
  present : t.present = s.present
  queue : t.hostQueue = s.hostQueue

/-- The core never writes IN, `IN_SIZE` or what START sampled (R40, R132). -/
theorem PhaseCase.input {s t : State} (h : PhaseCase s t) : SameInput s t := by
  cases h with
  | rest _ ht => subst ht; exact ⟨rfl, rfl, rfl, rfl, rfl⟩
  | guard _ _ _ ht => subst ht; exact ⟨rfl, rfl, rfl, rfl, rfl⟩
  | hdr _ _ _ _ _ ht => subst ht; exact ⟨rfl, rfl, rfl, rfl, rfl⟩
  | expand _ h =>
    obtain ⟨-, hsize, hn, hpres, hmem, hqueue, -, -⟩ := h.host
    exact ⟨hmem, hsize, hn, hpres, hqueue⟩

/-! ### The core's registers and memories under a host move -/

/-- The registers of a run, OUT and HIST are the same. -/
structure SameCoreSide (s t : State) : Prop where
  bounds : SameBounds s t
  window : SameWindow s t
  out : SameOut s t
  ioff : t.ioff = s.ioff
  stage : t.stage = s.stage

/-- The host reaches the registers of a run, OUT and HIST by hardware reset alone (R134, R140). -/
theorem HostCase.coreSide {m : HostMove} {s t : State} (h : HostCase m s t) : t = hardReset s ∨ SameCoreSide s t := by
  cases h with
  | reset _ ht => exact .inl ht
  | start _ _ _ _ _ ht => subst ht; exact .inr ⟨⟨rfl, rfl⟩, ⟨rfl, rfl⟩, ⟨rfl, rfl, rfl, rfl⟩, rfl, rfl⟩
  | write _ _ _ ht => subst ht; exact .inr ⟨⟨rfl, rfl⟩, ⟨rfl, rfl⟩, ⟨rfl, rfl, rfl, rfl⟩, rfl, rfl⟩
  | read _ _ ht => subst ht; exact .inr ⟨⟨rfl, rfl⟩, ⟨rfl, rfl⟩, ⟨rfl, rfl, rfl, rfl⟩, rfl, rfl⟩
  | place _ _ _ ht => subst ht; exact .inr ⟨⟨rfl, rfl⟩, ⟨rfl, rfl⟩, ⟨rfl, rfl, rfl, rfl⟩, rfl, rfl⟩

/-! ### Predicates of the output part that every step keeps -/

/-- A step empties OUT and HIST and returns the write cursor to 0, or writes some bytes, perhaps none, from the write
cursor on. -/
inductive OutputCase (s t : State) : Prop where
  /-- Hardware reset or entry to Phase 2 (R87, R140). -/
  | cleared (hout : t.outMem = []) (hhist : t.histMem = []) (hooff : t.ooff = 0)
  /-- Everything else (R44, R50). -/
  | written (vs : List Byte) (h : SameOut (emitAll vs s) t)

/-- Nothing of the output part has changed. -/
theorem OutputCase.kept {s t : State} (h : SameOut s t) : OutputCase s t := .written [] h

theorem PhaseCase.output {s t : State} (h : PhaseCase s t) : OutputCase s t := by
  cases h with
  | rest _ ht => subst ht; exact .kept ⟨rfl, rfl, rfl, rfl⟩
  | guard _ _ _ ht => subst ht; exact .kept ⟨rfl, rfl, rfl, rfl⟩
  | hdr _ _ _ _ _ ht => subst ht; exact .cleared rfl rfl rfl
  | expand _ h =>
    obtain ⟨vs, hout⟩ := h.output
    exact .written vs hout

/-- Everything a step can do to the output part. -/
theorem step_output {s t : State} (h : step s = .next t) : OutputCase s t := by
  rcases step_byPhase h with ⟨_, _, -, hhost⟩ | ⟨-, hcore⟩
  · rcases hhost.coreSide with rfl | hsame
    · exact .cleared rfl rfl rfl
    · obtain ⟨hout, hhist, hfill, hooff⟩ := hsame.out
      exact .kept ⟨hout, hhist, hfill, hooff⟩
  · exact hcore.output

/-- A predicate of the output part that holds of an empty output and that writing one byte keeps. -/
structure OutputInvariant (P : State → Prop) : Prop where
  empty : ∀ t : State, t.outMem = [] → t.histMem = [] → t.ooff = 0 → P t
  emit : ∀ (v : Byte) (s : State), P s → P (emit v s)
  congr : ∀ s t : State, SameOut s t → P s → P t

theorem OutputInvariant.emitAll {P : State → Prop} (hP : OutputInvariant P) (vs : List Byte) {s : State} (h : P s) :
    P (emitAll vs s) := by
  induction vs generalizing s with
  | nil => exact h
  | cons v vs ih => exact ih (hP.congr (Machine.emit v s) _ ⟨rfl, rfl, rfl, rfl⟩ (hP.emit v s h))

/-- Every step keeps a predicate of the output part that writing one byte keeps. -/
theorem OutputInvariant.step {P : State → Prop} (hP : OutputInvariant P) {s t : State} (h : P s)
    (hstep : step s = .next t) : P t := by
  cases step_output hstep with
  | cleared hout hhist hooff => exact hP.empty t hout hhist hooff
  | written vs hw => exact hP.congr _ _ hw (hP.emitAll vs h)

/-- OUT and HIST keep their canonical form. -/
def State.outputCanonical (s : State) : Prop :=
  Memory.wf .output s.outMem = true ∧ Memory.wf .history s.histMem = true

theorem outputCanonical_invariant : OutputInvariant State.outputCanonical where
  empty t hout hhist _ := by simp only [State.outputCanonical, hout, hhist, wf_nil, and_self]
  emit v s h := ⟨wf_write h.1, wf_write h.2⟩
  congr s t he h := by simpa only [State.outputCanonical, he.out, he.hist] using h

theorem outBelowCursor_invariant : OutputInvariant State.outBelowCursor where
  empty t hout _ _ := by simp [State.outBelowCursor, hout]
  emit v s h := by
    intro c hc
    rw [emit_ooff]
    rcases mem_write hc with heq | hmem
    · omega
    · exact Nat.lt_succ_of_lt (h c hmem)
  congr s t he h := by simpa only [State.outBelowCursor, he.out, he.ooff] using h

theorem histInWindow_invariant : OutputInvariant State.histInWindow where
  empty t _ hhist _ := by simp [State.histInWindow, hhist]
  emit v s h := by
    intro c hc
    rcases mem_write hc with heq | hmem
    · exact heq ▸ Nat.mod_lt _ (by decide)
    · exact h c hmem
  congr s t he h := by simpa only [State.histInWindow, he.hist] using h

/-- Two of the last 4096 indices have different slots of HIST (R44). -/
theorem histSlot_ne {p q : Nat} (h : p < q) (hw : q < p + Config.window) : histSlot p ≠ histSlot q := by
  simp only [histSlot, Config.window] at hw ⊢
  omega

/-- Writing one byte keeps the HIST view: the new byte is mirrored, and its slot is none of the 4095 before (R45). -/
theorem emit_historyView (v : Byte) {s : State} (hc : s.outputCanonical) (h : s.historyView) :
    (emit v s).historyView := by
  obtain ⟨hout, hhist⟩ := hc
  intro p hp hw
  rw [emit_ooff] at hp hw
  rcases Nat.lt_succ_iff_lt_or_eq.mp hp with hlt | rfl
  · rw [emit_histByte_other hhist (histSlot_ne hlt (by omega)), emit_outByte_other hout (Nat.ne_of_lt hlt)]
    exact h p hlt (by omega)
  · rw [emit_histByte_same hhist, emit_outByte_same hout]

theorem historyView_invariant : OutputInvariant fun s => s.outputCanonical ∧ s.historyView where
  empty t hout hhist hooff :=
    ⟨outputCanonical_invariant.empty t hout hhist hooff, fun p hp => absurd (hooff ▸ hp) (Nat.not_lt_zero p)⟩
  emit v s h := ⟨outputCanonical_invariant.emit v s h.1, emit_historyView v h.1 h.2⟩
  congr s t he h := by
    refine ⟨outputCanonical_invariant.congr s t he h.1, fun p hp hw => ?_⟩
    rw [he.ooff] at hp hw
    rw [he.histByte, he.outByte]
    exact h.2 p hp hw

/-! ### The other parts of the invariant -/

/-- The shift of a mask of the nine is one of the nine (R22, R91). -/
theorem shiftMask_mem_maskValues : ∀ m ∈ maskValues, shiftMask m ∈ maskValues := by
  simp [maskValues, shiftMask]

theorem maskLegal_congr {s t : State} (hm : t.mask = s.mask) (hs : t.stage = s.stage) (h : s.maskLegal) :
    t.maskLegal := by
  simpa only [State.maskLegal, hm, hs] using h

/-- A zero mask is one of the nine values. -/
theorem zero_mem_maskValues : 0#16 ∈ maskValues := List.mem_cons_self ..

/-- At the loop guard a legal mask is just one of the nine values. -/
theorem maskLegal_of_loop {s : State} (hm : s.mask ∈ maskValues) (hs : s.stage = .loop) : s.maskLegal := by
  simp [State.maskLegal, hm, hs]

theorem ExpandCase.maskLegal {s t : State} (h : ExpandCase s t) (hm : s.maskLegal) : t.maskLegal := by
  cases h with
  | ended h => exact maskLegal_congr h.window.1 h.stage hm
  | shifted _ _ ht =>
    subst ht
    refine ⟨shiftMask_mem_maskValues _ hm.1, ?_⟩
    by_cases hz : shiftMask s.mask = 0#16 <;> simp [hz]
  | loaded _ _ _ ht => subst ht; simp [State.maskLegal, maskValues, Config.maskReload]
  | produced _ h => exact maskLegal_of_loop (h.window.1 ▸ hm.1) h.stage

/-- Every step keeps the mask legal (R22). -/
theorem step_maskLegal {s t : State} (hm : s.maskLegal) (h : step s = .next t) : t.maskLegal := by
  rcases step_byPhase h with ⟨_, _, -, hhost⟩ | ⟨-, hcore⟩
  · rcases hhost.coreSide with rfl | hsame
    · exact maskLegal_of_loop zero_mem_maskValues rfl
    · exact maskLegal_congr hsame.window.1 hsame.stage hm
  · cases hcore with
    | rest _ ht => subst ht; exact hm
    | guard _ _ _ ht => subst ht; exact hm
    | hdr _ _ _ _ _ ht => subst ht; exact maskLegal_of_loop zero_mem_maskValues rfl
    | expand _ h => exact h.maskLegal hm

/-- Every step keeps the three memories canonical. -/
theorem step_memoryCanonical {s t : State} (hc : s.memoryCanonical) (h : step s = .next t) : t.memoryCanonical := by
  obtain ⟨hin, hout, hhist⟩ := hc
  refine ⟨?_, outputCanonical_invariant.step ⟨hout, hhist⟩ h⟩
  rcases step_byPhase h with ⟨_, _, -, hhost⟩ | ⟨-, hcore⟩
  · cases hhost with
    | reset _ ht => subst ht; exact hin
    | start _ _ _ _ _ ht => subst ht; exact hin
    | write _ _ _ ht => subst ht; exact hin
    | read _ _ ht => subst ht; exact hin
    | place _ _ _ ht => subst ht; exact wf_write hin
  · rw [hcore.input.inMem]
    exact hin

/-- Every step keeps the cursors within `PSIZE` and `DLEN` (R20, R21). -/
theorem step_cursorsInRange {s t : State} (hc : s.cursorsInRange) (h : step s = .next t) : t.cursorsInRange := by
  rcases step_byPhase h with ⟨_, _, -, hhost⟩ | ⟨-, hcore⟩
  · rcases hhost.coreSide with rfl | hsame
    · exact ⟨Nat.zero_le _, Nat.zero_le _⟩
    · obtain ⟨hdlen, hpsize⟩ := hsame.bounds
      simpa only [State.cursorsInRange, hsame.ioff, hsame.out.ooff, hdlen, hpsize] using hc
  · cases hcore with
    | rest _ ht => subst ht; exact hc
    | guard _ _ _ ht => subst ht; exact hc
    | hdr _ _ _ _ _ ht => subst ht; exact ⟨Nat.zero_le _, Nat.zero_le _⟩
    | expand _ h =>
      obtain ⟨hdlen, hpsize⟩ := h.bounds
      obtain ⟨-, -, hioff⟩ := h.ioff hc.1
      exact ⟨hpsize ▸ hioff, hdlen ▸ h.ooff hc.2⟩

/-- A state that is not in EXPAND makes no claim about the input a run was launched with. -/
theorem launched_of_ne_expand {s : State} (h : s.phase ≠ .expand) : s.launched := fun hp => absurd hp h

/-- A machine that is not busy is not in EXPAND. -/
theorem ne_expand_of_not_busy {s : State} (h : s.busy = false) : s.phase ≠ .expand := by
  intro hp
  simp [State.busy, hp] at h

/-- Every step keeps the claim about the input a run was launched with: the host cannot write IN during a run, and
Phase 2 is entered after the guards (R82, R142, R143). -/
theorem step_launched {s t : State} (hl : s.launched) (h : step s = .next t) : t.launched := by
  rcases step_byPhase h with ⟨_, _, -, hhost⟩ | ⟨-, hcore⟩
  · cases hhost with
    | reset _ ht => subst ht; exact launched_of_ne_expand (by simp [hardReset, State.reset])
    | start _ _ _ _ _ ht => subst ht; exact launched_of_ne_expand (by simp)
    | write _ _ _ ht => subst ht; exact hl
    | read _ _ ht => subst ht; exact hl
    | place hb _ _ ht => subst ht; exact launched_of_ne_expand (ne_expand_of_not_busy hb)
  · have hin := hcore.input
    cases hcore with
    | rest _ ht => subst ht; exact hl
    | guard _ _ _ ht => subst ht; exact launched_of_ne_expand (by simp)
    | hdr _ hpres hn hf _ ht => subst ht; exact fun _ => ⟨hpres, (Nat.sub_add_cancel hn).symm, hf⟩
    | expand hp h =>
      intro _
      rw [hin.present, hin.n, hin.inMem, h.bounds.2]
      exact hl hp

/-- Every step keeps `IN_SIZE` a number of `AW` bits (R17). -/
theorem step_inSizeFits {s t : State} (hz : s.inSizeFits) (h : step s = .next t) : t.inSizeFits := by
  rcases step_byPhase h with ⟨_, _, -, hhost⟩ | ⟨-, hcore⟩
  · cases hhost with
    | reset _ ht => subst ht; exact Nat.two_pow_pos _
    | start _ _ _ _ _ ht => subst ht; exact hz
    | write _ size hsize ht =>
      subst ht
      rcases hsize with rfl | hlt
      · exact hz
      · exact hlt
    | read _ _ ht => subst ht; exact hz
    | place _ _ _ ht => subst ht; exact hz
  · rw [State.inSizeFits, hcore.input.inSize]
    exact hz

/-- Settles O49: each part of the invariant is kept by a lemma of its own. -/
theorem everyStepKeepsTheInvariant : Obligations.EveryStepKeepsTheInvariant := by
  intro s t hinv hstep
  obtain ⟨hcanon, hmask, hcursors, hbelow, hwindow, hview, hlaunched, hsize⟩ := hinv
  exact ⟨step_memoryCanonical hcanon hstep, step_maskLegal hmask hstep, step_cursorsInRange hcursors hstep,
    outBelowCursor_invariant.step hbelow hstep, histInWindow_invariant.step hwindow hstep,
    (historyView_invariant.step ⟨hcanon.2, hview⟩ hstep).2, step_launched hlaunched hstep,
    step_inSizeFits hsize hstep⟩

/-- Settles O48: nothing is listed, both cursors and the mask are zero, and no run is in progress. -/
theorem resetMeetsTheInvariant : Obligations.ResetMeetsTheInvariant :=
  ⟨⟨rfl, rfl, rfl⟩, maskLegal_of_loop zero_mem_maskValues rfl, ⟨Nat.le_refl _, Nat.le_refl _⟩,
    outBelowCursor_invariant.empty _ rfl rfl rfl, histInWindow_invariant.empty _ rfl rfl rfl,
    (historyView_invariant.empty _ rfl rfl rfl).2, launched_of_ne_expand (by decide), Nat.two_pow_pos _⟩

/-- Settles O50. -/
theorem maskStaysOneHot : Obligations.MaskStaysOneHot := fun _ _ hm h => step_maskLegal hm h

/-- Settles O55: only the parts of an iteration move the counter. -/
theorem payloadCounterOnlyAdvances : Obligations.PayloadCounterOnlyAdvances := by
  intro s t hq hp hle h
  exact ((coreStep_cases (step_core hq ▸ h)).inExpand hp).ioff hle

/-- A machine that is not busy is in IDLE or in DONE. -/
theorem idle_or_done_of_not_busy {s : State} (h : s.busy = false) : s.phase = .idle ∨ s.phase = .done := by
  cases hp : s.phase with
  | idle => exact .inl rfl
  | done => exact .inr rfl
  | header => simp [State.busy, hp] at h
  | expand => simp [State.busy, hp] at h

/-- Settles O52: the host moves the phase by reset and START alone, the core by the end of Phase 1 and of a run. -/
theorem phaseMovesOnlyAsListed : Obligations.PhaseMovesOnlyAsListed := by
  refine ⟨⟨rfl, rfl, rfl, rfl⟩, fun s t h => ?_⟩
  rcases step_byPhase h with ⟨m, rest, hq, hhost⟩ | ⟨-, hcore⟩
  · cases hhost with
    | reset hm ht => subst hm ht; exact .inr (.inr (.inr (.inr ⟨⟨rest, hq⟩, rfl⟩)))
    | start hm hb _ _ _ ht =>
      obtain ⟨v, rfl, hbit⟩ := hm
      subst ht
      exact .inr (.inl ⟨idle_or_done_of_not_busy (s := s) hb, rfl, v, rest, hq, hbit⟩)
    | write _ _ _ ht => subst ht; exact .inl rfl
    | read _ _ ht => subst ht; exact .inl rfl
    | place _ _ _ ht => subst ht; exact .inl rfl
  · cases hcore with
    | rest _ ht => subst ht; exact .inl rfl
    | guard hp _ _ ht => subst ht; exact .inr (.inr (.inr (.inl ⟨.inl hp, rfl⟩)))
    | hdr hp _ _ _ _ ht => subst ht; exact .inr (.inr (.inl ⟨hp, rfl⟩))
    | expand hp h =>
      rcases h.phase with hsame | hdone
      · exact .inl hsame
      · exact .inr (.inr (.inr (.inl ⟨.inr hp, hdone⟩)))

/-! ### The host's registers -/

/-- `STAT` holds the status code above the phase code (R12). -/
theorem statWord_toNat (c : BitVec 3) (p : Phase) : (statWord c p).toNat = 4 * c.toNat + p.code.toNat := by
  rw [statWord, BitVec.toNat_append, ← Nat.shiftLeft_add_eq_or_of_lt p.code.isLt, Nat.shiftLeft_eq, Nat.mul_comm]

/-- A read of `STAT` returns three bits, whatever they are, above the phase code (R15, R16). -/
theorem readReg_stat (s : State) : ∃ (c : BitVec 3) (draws : Nat),
    readReg .stat s = { s with readData := 4 * c.toNat + s.phase.code.toNat, draws := draws } := by
  by_cases hp : s.phase = .done
  · refine ⟨s.status.code, s.draws, ?_⟩
    simp only [readReg, if_pos hp, returned, statWord_toNat]
  · refine ⟨Config.freeBits 3 s.draws, s.draws + 1, ?_⟩
    simp only [readReg, if_neg hp, returned, drawn, statWord_toNat]

/-- In DONE the three bits are the status code, and the phase code is 3 (R15, R16). -/
theorem readReg_stat_done {s : State} (hp : s.phase = .done) :
    readReg .stat s = { s with readData := 4 * s.status.code.toNat + 3 } := by
  have hcode : s.phase.code.toNat = 3 := by rw [hp]; rfl
  simp only [readReg, if_pos hp, returned, statWord_toNat, hcode]

/-- `DLEN` is valid in DONE after OK or MalformedStream (R18, R128). -/
theorem dlenValid_iff (s : State) :
    s.dlenValid = true ↔ s.phase = .done ∧ (s.status = .ok ∨ s.status = .malformedStream) := by
  simp [State.dlenValid]

/-- OUT is a result in DONE after OK (R128). -/
theorem outValid_iff (s : State) : s.outValid = true ↔ s.phase = .done ∧ s.status = .ok := by
  simp [State.outValid]

/-- Settles O13: the phase code stands in the two low bits below whatever three bits are returned above it. -/
theorem phaseIsReadableAtAnyTime : Obligations.PhaseIsReadableAtAnyTime := by
  intro s rest hq
  obtain ⟨c, draws, hread⟩ := readReg_stat { s with hostQueue := rest }
  refine ⟨_, (step_host hq).trans (congrArg Host.Outcome.next hread), ?_, ?_, rfl, rfl, ⟨rfl, rfl⟩, ⟨rfl, rfl⟩,
    ⟨rfl, rfl, rfl, rfl, rfl, rfl, rfl⟩, ⟨rfl, fun _ => rfl, fun _ => rfl⟩, rfl⟩
  all_goals
    have hc := c.isLt
    have hcode := s.phase.code.isLt
    dsimp only
    omega

/-- Settles O11, register by register. -/
theorem registerWritesReachOnlyTheirFields : Obligations.RegisterWritesReachOnlyTheirFields := by
  intro s r v rest hq
  rw [step_host hq]
  refine ⟨?_, ?_, ?_, ?_⟩
  · rintro rfl hstart
    simp only [hostMove, writeReg, writeCtrl, hstart, Bool.false_and, Bool.false_eq_true, if_false]
  · rintro (rfl | rfl) <;> rfl
  · rintro rfl
    rfl
  · rintro rfl hv
    simp only [hostMove, writeReg, Nat.mod_eq_of_lt hv]

/-- Settles O12, register by register. -/
theorem registerReadsReturnTheFields : Obligations.RegisterReadsReturnTheFields := by
  intro s r rest hq
  rw [step_host hq]
  refine ⟨?_, ?_, ?_, ?_, ?_⟩
  · rintro rfl
    cases hpres : s.inPresent <;> simp [hostMove, readReg, returned]
  · rintro rfl hp
    exact congrArg Host.Outcome.next (readReg_stat_done (s := { s with hostQueue := rest }) hp)
  · rintro rfl
    rfl
  · rintro rfl hp hst
    have hvalid : ({ s with hostQueue := rest } : State).dlenValid = true := (dlenValid_iff _).mpr ⟨hp, hst⟩
    simp only [hostMove, readReg, hvalid, if_true, returned]
  · rintro rfl hnot
    have hinvalid : ¬({ s with hostQueue := rest } : State).dlenValid = true := mt (dlenValid_iff _).mp hnot
    refine ⟨_, rfl, ?_, ?_⟩ <;> simp only [readReg, if_neg hinvalid, returned, drawn]
    exact (Config.freeBits 32 s.draws).isLt

/-! ### A run depends on its input alone (R31) -/

/-- Two machines in Phase 2 are at the same place of the same run. `HEADER` counts only once a control byte has been
loaded, the back-reference registers and HIST not at all. -/
structure SameProgress (s u : State) : Prop where
  psize : u.psize = s.psize
  dlen : u.dlen = s.dlen
  ioff : u.ioff = s.ioff
  ooff : u.ooff = s.ooff
  mask : u.mask = s.mask
  stage : u.stage = s.stage
  out : u.outMem = s.outMem
  header : s.mask ≠ 0#16 → u.header = s.header

/-- Two machines show the host the same, and in Phase 2 they are at the same place of the same run. -/
structure Agree (s u : State) : Prop where
  result : SameResult s u
  progress : s.phase = .expand → SameProgress s u

/-- Two machines with no host move waiting run on the same input and agree. -/
structure SameRun (s u : State) : Prop where
  quiet : s.hostQueue = [] ∧ u.hostQueue = []
  inMem : u.inMem = s.inMem
  n : u.n = s.n
  present : u.present = s.present
  agree : Agree s u

/-! How two machines come to agree after a step. -/

theorem agree_of_expand {t v : State} (ht : t.phase = .expand) (hv : v.phase = .expand) (h : SameProgress t v) :
    Agree t v :=
  ⟨⟨hv.trans ht.symm, fun hdone => by simp [ht] at hdone⟩, fun _ => h⟩

/-- Two machines of the same progress that end with the same status have the same result. -/
theorem agree_of_runEnded {s u t v : State} (h : SameProgress s u) (ht : RunEnded s t) (hv : RunEnded u v)
    (hst : v.status = t.status) : Agree t v := by
  have hdlen : v.dlen = t.dlen := by rw [hv.bounds.1, ht.bounds.1, h.dlen]
  have hout : v.outMem = t.outMem := by rw [hv.out.out, ht.out.out, h.out]
  refine ⟨⟨hv.phase.trans ht.phase.symm, fun _ => ⟨hst, fun _ => hdlen, fun _ i _ => ?_⟩⟩, fun hp => ?_⟩
  · simp only [State.outByte, hout]
  · simp [ht.phase] at hp

theorem agree_of_refRaised {s u t v : State} (h : SameProgress s u) (ht : RefRaised s t) (hv : RefRaised u v) :
    Agree t v :=
  agree_of_runEnded h ht.runEnded hv.runEnded (hv.status.trans ht.status.symm)

/-- Two machines whose header is rejected for the same reason have the same status, and no result. -/
theorem agree_of_rejected {s u : State} {r : Reason} (hr : r = .absentInput ∨ r = .shortHeader ∨ r = .badMagic) :
    Agree (raise r s) (raise r u) := by
  refine ⟨⟨rfl, fun _ => ⟨rfl, fun hvalid => ?_, fun hvalid => ?_⟩⟩, fun hp => by simp at hp⟩
  · rcases hr with rfl | rfl | rfl <;> simp [dlenValid_iff, Reason.signal] at hvalid
  · rcases hr with rfl | rfl | rfl <;> simp [outValid_iff, Reason.signal] at hvalid

/-! The tokens. -/

/-- CTRL with a payload byte left (R92). -/
theorem execCtrl_loads (c : Byte) {s : State} (hp : s.ioff < s.psize) :
    execCtrl c s = .next (loadWindow c (advance s)) := by
  simp only [execCtrl, payRead_ok hp, Except.map, settle]

/-- CTRL with no payload byte left (R43, R92). -/
theorem execCtrl_overruns (c : Byte) {s : State} (hp : s.psize ≤ s.ioff) :
    execCtrl c s = .next (raise .payloadOverrun s) := by
  simp only [execCtrl, payRead_error hp, Except.map, settle]

/-- LIT at the end of the output (R101). -/
theorem execLit_finishes (b : Byte) {s : State} (hd : s.dlen.toNat ≤ s.ooff) : execLit b s = .next (finishOk s) := by
  simp only [execLit, if_pos hd]

/-- LIT with output owed and a payload byte left (R100). -/
theorem execLit_copies (b : Byte) {s : State} (hd : s.ooff < s.dlen.toNat) (hp : s.ioff < s.psize) :
    execLit b s = .next (endIteration (emit b (advance s))) := by
  simp only [execLit, if_neg (Nat.not_le.mpr hd), payRead_ok hp, Except.map, settle]

/-- LIT with output owed and no payload byte left (R43, R100). -/
theorem execLit_overruns (b : Byte) {s : State} (hd : s.ooff < s.dlen.toNat) (hp : s.psize ≤ s.ioff) :
    execLit b s = .next (raise .payloadOverrun s) := by
  simp only [execLit, if_neg (Nat.not_le.mpr hd), payRead_error hp, Except.map, settle]

/-- HDR takes any two machines of the same `N` to the same progress (R84 to R87). -/
theorem execHdr_agree {dlen : Length32} {reserved : Reserved64} {s u t : State} (hn : u.n = s.n)
    (hstep : execHdr dlen reserved s = .next t) : ∃ v, execHdr dlen reserved u = .next v ∧ Agree t v := by
  refine ⟨_, rfl, execHdr_next hstep ▸ agree_of_expand rfl rfl ?_⟩
  constructor
  case header => exact fun hmask => absurd rfl hmask
  all_goals simp [hn]

theorem execCtrl_agree {c : Byte} {s u t : State} (hp : s.phase = .expand) (hpu : u.phase = .expand)
    (h : SameProgress s u) (hstep : execCtrl c s = .next t) : ∃ v, execCtrl c u = .next v ∧ Agree t v := by
  rcases execCtrl_next hstep with ⟨hlt, rfl⟩ | ⟨hge, rfl⟩
  · refine ⟨_, execCtrl_loads c (by rw [h.ioff, h.psize]; exact hlt), agree_of_expand hp hpu ?_⟩
    constructor <;> simp [h.psize, h.dlen, h.ioff, h.ooff, h.out]
  · exact ⟨_, execCtrl_overruns c (by rw [h.ioff, h.psize]; exact hge),
      agree_of_runEnded h (runEnded_payloadOverrun s) (runEnded_payloadOverrun u) rfl⟩

theorem execLit_agree {b : Byte} {s u t : State} (hp : s.phase = .expand) (hpu : u.phase = .expand)
    (h : SameProgress s u) (hstep : execLit b s = .next t) : ∃ v, execLit b u = .next v ∧ Agree t v := by
  rcases execLit_next hstep with ⟨hd, rfl⟩ | ⟨hd, hlt, rfl⟩ | ⟨hd, hge, rfl⟩ <;> rw [← h.dlen, ← h.ooff] at hd
  · exact ⟨_, execLit_finishes b hd, agree_of_runEnded h
      (runEnded_finishOk (by rw [← h.dlen, ← h.ooff]; exact hd)) (runEnded_finishOk hd) rfl⟩
  · refine ⟨_, execLit_copies b hd (by rw [h.ioff, h.psize]; exact hlt), agree_of_expand hp hpu ?_⟩
    constructor
    case header => exact h.header
    all_goals simp [h.psize, h.dlen, h.ioff, h.ooff, h.out, h.mask]
  · exact ⟨_, execLit_overruns b hd (by rw [h.ioff, h.psize]; exact hge),
      agree_of_runEnded h (runEnded_payloadOverrun s) (runEnded_payloadOverrun u) rfl⟩

/-- Two back-references that complete, from machines of the same progress, leave machines of the same progress. -/
theorem shortDone_progress (n : Nibble) (dist : Dist) {s u : State} (h : SameProgress s u) :
    SameProgress (shortDone n dist s) (shortDone n dist u) := by
  constructor
  case header => simpa using h.header
  case out =>
    refine copyBytes_outMem_congr _ ?_ ?_ ?_ <;> simp [headDone, h.out, h.ooff]
  all_goals simp [h.psize, h.dlen, h.ioff, h.ooff, h.mask]

theorem longDone_progress (dist : Dist) (m : Byte) {s u : State} (h : SameProgress s u) :
    SameProgress (longDone dist m s) (longDone dist m u) := by
  constructor
  case header => simpa using h.header
  case out =>
    refine copyBytes_outMem_congr _ ?_ ?_ ?_ <;> simp [headDone, h.out, h.ooff]
  all_goals simp [h.psize, h.dlen, h.ioff, h.ooff, h.mask]

theorem execRefs_agree {n : Nibble} {dist : Dist} {s u t : State} (hp : s.phase = .expand) (hpu : u.phase = .expand)
    (h : SameProgress s u) (hstep : execRefs n dist s = .next t) :
    ∃ v, execRefs n dist u = .next v ∧ Agree t v := by
  by_cases hn : n = 0#4
  · simp [execRefs, hn] at hstep
  · simp only [execRefs, if_neg hn] at hstep ⊢
    have hu := shortRef_cases n dist u
    rw [h.ioff, h.psize, h.ooff, h.dlen] at hu
    rcases shortRef_cases n dist s with ⟨hpay, hgap, hroom, hs⟩ | ⟨hbad, t', hs, ht, -⟩ <;>
      obtain rfl : t = _ := (Host.Outcome.next.inj (hs ▸ hstep)).symm
    · rcases hu with ⟨-, -, -, hu⟩ | ⟨hbad, -⟩
      · exact ⟨_, by rw [hu, settle], agree_of_expand (by simpa using hp) (by simpa using hpu)
          (shortDone_progress n dist h)⟩
      · omega
    · rcases hu with ⟨hpay, hgap, hroom, -⟩ | ⟨-, v, hu, hv, -⟩
      · omega
      · exact ⟨v, by rw [hu, settle], agree_of_refRaised h ht hv⟩

theorem execRefl_agree {dist : Dist} {m : Byte} {s u t : State} (hp : s.phase = .expand) (hpu : u.phase = .expand)
    (h : SameProgress s u) (hstep : execRefl dist m s = .next t) :
    ∃ v, execRefl dist m u = .next v ∧ Agree t v := by
  simp only [execRefl] at hstep ⊢
  have hu := longRef_cases dist m u
  rw [h.ioff, h.psize, h.ooff, h.dlen] at hu
  rcases longRef_cases dist m s with ⟨hpay, hgap, hroom, hs⟩ | ⟨hbad, t', hs, ht⟩ <;>
    obtain rfl : t = _ := (Host.Outcome.next.inj (hs ▸ hstep)).symm
  · rcases hu with ⟨-, -, -, hu⟩ | ⟨hbad, -⟩
    · exact ⟨_, by rw [hu, settle], agree_of_expand (by simpa using hp) (by simpa using hpu)
        (longDone_progress dist m h)⟩
    · omega
  · rcases hu with ⟨hpay, hgap, hroom, -⟩ | ⟨-, v, hu, hv⟩
    · omega
    · exact ⟨v, by rw [hu, settle], agree_of_refRaised h ht hv⟩

/-- The same token on two runs of the same progress. (HDR is none of Phase 2, yet the statement
holds of it too.) -/
theorem exec_agree {i : Instr} {s u t : State} (hp : s.phase = .expand) (hpu : u.phase = .expand) (hn : u.n = s.n)
    (h : SameProgress s u) (hstep : exec i s = .next t) : ∃ v, exec i u = .next v ∧ Agree t v := by
  cases i with
  | hdr dlen reserved => exact execHdr_agree (reserved := reserved) hn hstep
  | ctrl c => exact execCtrl_agree hp hpu h hstep
  | lit v => exact execLit_agree hp hpu h hstep
  | refs n dist => exact execRefs_agree hp hpu h hstep
  | refl dist m => exact execRefl_agree hp hpu h hstep

/-! What a step fetches. -/

theorem peek_congr {s u : State} (hmem : u.inMem = s.inMem) (h : SameProgress s u) (k : Nat) : u.peek k = s.peek k := by
  simp only [State.peek, hmem, h.ioff, h.psize]

/-- A window of Phase 2 is read from IN at the payload counter. -/
theorem window_congr {s u : State} (hmem : u.inMem = s.inMem) (h : SameProgress s u) (m : Mode) :
    u.window m = s.window m := by
  cases m with
  | header => simp only [State.window, hmem]
  | control => simp only [State.window, peek_congr hmem h]
  | literal => simp only [State.window, peek_congr hmem h]
  | backref => simp only [State.window, peek_congr hmem h]

/-- The control bit is clear while `MASK` is zero, whatever `HEADER` holds (R24). -/
theorem cbit_congr {s u : State} (h : SameProgress s u) : u.cbit = s.cbit := by
  by_cases hz : s.mask = 0#16
  · simp [State.cbit, h.mask, hz]
  · simp only [State.cbit, h.mask, h.header hz]

theorem tokenMode_congr {s u : State} (h : SameProgress s u) : u.tokenMode = s.tokenMode := by
  simp only [State.tokenMode, cbit_congr h]

/-- A step of a core that fetches: the token its window decodes to, or the raise on a wrong magic. -/
theorem step_fetch {s t : State} {m : Mode} (hq : s.hostQueue = []) (hm : coreMove s = fetchToken m s)
    (h : step s = .next t) :
    (∃ i rest, decode m (s.window m) = .ok (i, rest) ∧ exec i s = .next t) ∨
    (decode m (s.window m) = .error .badMagic ∧ m = .header ∧ t = raise .badMagic s) := by
  cases hd : decode m (s.window m) with
  | ok p => exact .inl ⟨p.1, p.2, rfl, step_run hq hm hd ▸ h⟩
  | error e =>
    cases e with
    | badMagic => exact .inr ⟨rfl, decode_badMagic hd, Host.Outcome.next.inj (h.symm.trans (step_badMagic hq hm hd))⟩
    | short => simp [step_core hq, coreStep, hm, fetchToken, hd] at h

/-- Two runs of the same progress that fetch a payload token in the same mode. -/
theorem step_payload_agree {s u t : State} {m : Mode} (h : SameRun s u) (hp : s.phase = .expand) (hmode : m ≠ .header)
    (hs : coreMove s = fetchToken m s) (hu : coreMove u = fetchToken m u) (hstep : step s = .next t) :
    ∃ v, step u = .next v ∧ Agree t v := by
  have hprog := h.agree.progress hp
  have hpu : u.phase = .expand := h.agree.result.1.trans hp
  rcases step_fetch h.quiet.1 hs hstep with ⟨i, rest, hd, he⟩ | ⟨-, hm, -⟩
  · obtain ⟨v, hv, hagree⟩ := exec_agree hp hpu h.n hprog he
    rw [← window_congr h.inMem hprog] at hd
    exact ⟨v, (step_run h.quiet.2 hu hd).trans hv, hagree⟩
  · exact absurd hm hmode

/-! The step, phase by phase. -/

/-- In IDLE and DONE the core rests (R130, R140). -/
theorem step_rest {s : State} (hq : s.hostQueue = []) (hp : s.phase = .idle ∨ s.phase = .done) :
    step s = .next s := by
  rcases hp with hp | hp <;> simp only [step_core hq, coreStep, coreMove, hp]

/-- Guard 1 (R81). -/
theorem step_absent {s : State} (hq : s.hostQueue = []) (hp : s.phase = .header) (hpres : s.present = false) :
    step s = .next (raise .absentInput s) := by
  simp [step_core hq, coreStep, coreMove, hp, validateHeader, hpres]

/-- Guard 2 (R82). -/
theorem step_short {s : State} (hq : s.hostQueue = []) (hp : s.phase = .header) (hpres : s.present = true)
    (hn : s.n < Config.hdrSize) : step s = .next (raise .shortHeader s) := by
  simp [step_core hq, coreStep, coreMove, hp, validateHeader, hpres, hn]

/-- A launch state whose IN is too short is refused (R142). -/
theorem step_inputShort {s : State} (hq : s.hostQueue = []) (hp : s.phase = .header) (hpres : s.present = true)
    (hn : Config.hdrSize ≤ s.n) (hf : Memory.filledFrom 0 s.inMem < s.n) : step s = .refused .inputShort := by
  simp [step_core hq, coreStep, coreMove, hp, validateHeader, hpres, Nat.not_lt.mpr hn, hf]

/-- The header validator reads IN, `N` and `present` alone. -/
theorem step_header_agree {s u t : State} (h : SameRun s u) (hp : s.phase = .header) (hstep : step s = .next t) :
    ∃ v, step u = .next v ∧ Agree t v := by
  obtain ⟨hq, hqu⟩ := h.quiet
  have hpu : u.phase = .header := h.agree.result.1.trans hp
  cases hpres : s.present with
  | false =>
    obtain rfl := Host.Outcome.next.inj ((step_absent hq hp hpres).symm.trans hstep)
    exact ⟨_, step_absent hqu hpu (h.present.trans hpres), agree_of_rejected (by simp)⟩
  | true =>
    have hpresu := h.present.trans hpres
    rcases Nat.lt_or_ge s.n Config.hdrSize with hn | hn
    · obtain rfl := Host.Outcome.next.inj ((step_short hq hp hpres hn).symm.trans hstep)
      exact ⟨_, step_short hqu hpu hpresu (by rw [h.n]; exact hn), agree_of_rejected (by simp)⟩
    · rcases Nat.lt_or_ge (Memory.filledFrom 0 s.inMem) s.n with hf | hf
      · simp [step_inputShort hq hp hpres hn hf] at hstep
      · have hmoveu := coreMove_header hpu hpresu (by rw [h.n]; exact hn) (by rw [h.n, h.inMem]; exact hf)
        have hwindow : u.window .header = s.window .header := by simp only [State.window, h.inMem]
        rcases step_fetch hq (coreMove_header hp hpres hn hf) hstep with ⟨i, rest, hd, he⟩ | ⟨hd, -, rfl⟩ <;>
          rw [← hwindow] at hd
        · obtain ⟨dlen, reserved, rfl⟩ := decodeHeader_ok hd
          obtain ⟨v, hv, hagree⟩ := execHdr_agree (reserved := reserved) h.n he
          exact ⟨v, (step_run hqu hmoveu hd).trans hv, hagree⟩
        · exact ⟨_, step_badMagic hqu hmoveu hd, agree_of_rejected (by simp)⟩

/-- The loop guard reads the write cursor, `DLEN` and `MASK` alone. -/
theorem loopGuard_agree {s u : State} (hp : s.phase = .expand) (hpu : u.phase = .expand) (h : SameProgress s u) :
    Agree (loopGuard s) (loopGuard u) := by
  rcases Nat.lt_or_ge s.ooff s.dlen.toNat with hd | hd
  · have hdu : u.ooff < u.dlen.toNat := by rw [h.ooff, h.dlen]; exact hd
    rw [loopGuard_shift hd, loopGuard_shift hdu]
    refine agree_of_expand hp hpu ⟨h.psize, h.dlen, h.ioff, h.ooff, ?_, ?_, h.out, fun hz => h.header fun hzero => ?_⟩
    · simp only [h.mask]
    · simp only [h.mask]
    · exact hz (by simp only [hzero]; rfl)
  · have hdu : u.dlen.toNat ≤ u.ooff := by rw [h.ooff, h.dlen]; exact hd
    rw [loopGuard_done hd, loopGuard_done hdu]
    exact agree_of_runEnded h (runEnded_finishOk hd) (runEnded_finishOk hdu) rfl

theorem step_agree {s u t : State} (h : SameRun s u) (hstep : step s = .next t) :
    ∃ v, step u = .next v ∧ Agree t v := by
  obtain ⟨hq, hqu⟩ := h.quiet
  have hphase : u.phase = s.phase := h.agree.result.1
  cases hp : s.phase with
  | idle =>
    obtain rfl := Host.Outcome.next.inj ((step_rest hq (.inl hp)).symm.trans hstep)
    exact ⟨u, step_rest hqu (.inl (hphase.trans hp)), h.agree⟩
  | done =>
    obtain rfl := Host.Outcome.next.inj ((step_rest hq (.inr hp)).symm.trans hstep)
    exact ⟨u, step_rest hqu (.inr (hphase.trans hp)), h.agree⟩
  | header => exact step_header_agree h hp hstep
  | expand =>
    have hprog := h.agree.progress hp
    have hpu := hphase.trans hp
    cases hs : s.stage with
    | loop =>
      obtain rfl := Host.Outcome.next.inj ((step_loop hq hp hs).symm.trans hstep)
      exact ⟨_, step_loop hqu hpu (hprog.stage.trans hs), loopGuard_agree hp hpu hprog⟩
    | control =>
      exact step_payload_agree h hp (by simp) (coreMove_control hp hs) (coreMove_control hpu (hprog.stage.trans hs)) hstep
    | token =>
      have hmoveu := coreMove_token hpu (hprog.stage.trans hs)
      rw [tokenMode_congr hprog] at hmoveu
      have hmode : s.tokenMode ≠ .header := by unfold State.tokenMode; split <;> simp
      exact step_payload_agree h hp hmode (coreMove_token hp hs) hmoveu hstep

/-- A step of a machine with no host move waiting leaves the input of the run and the empty queue alone. -/
theorem step_input {s t : State} (hq : s.hostQueue = []) (h : step s = .next t) : SameInput s t :=
  (coreStep_cases (step_core hq ▸ h)).byPhase.input

/-- Two machines on the same run stay on the same run. -/
theorem step_sameRun {s u t : State} (h : SameRun s u) (hstep : step s = .next t) :
    ∃ v, step u = .next v ∧ SameRun t v := by
  obtain ⟨v, hv, hagree⟩ := step_agree h hstep
  have ht := step_input h.quiet.1 hstep
  have hu := step_input h.quiet.2 hv
  exact ⟨v, hv, ⟨ht.queue.trans h.quiet.1, hu.queue.trans h.quiet.2⟩, by rw [hu.inMem, ht.inMem, h.inMem],
    by rw [hu.n, ht.n, h.n], by rw [hu.present, ht.present, h.present], hagree⟩

/-- The first step of a run that answers a next state. -/
theorem run_succ_next {s t : State} {k : Nat} (h : Sys2Proof.core.run (k + 1) s = .next t) :
    ∃ m : State, step s = .next m ∧ Sys2Proof.core.run k m = .next t := by
  cases hstep : step s with
  | next m => exact ⟨m, rfl, run_succ hstep k ▸ h⟩
  | fault r =>
    have hcore : Sys2Proof.core.step s = .fault r := hstep
    simp [Host.Core.run, hcore] at h
  | refused r =>
    have hcore : Sys2Proof.core.step s = .refused r := hstep
    simp [Host.Core.run, hcore] at h

/-- Two machines on the same run are on the same run after every number of steps. -/
theorem run_sameRun (k : Nat) {s u t : State} (h : SameRun s u) (hrun : Sys2Proof.core.run k s = .next t) :
    ∃ v : State, Sys2Proof.core.run k u = .next v ∧ SameRun t v := by
  induction k generalizing s u with
  | zero =>
    obtain rfl : s = t := Host.Outcome.next.inj hrun
    exact ⟨u, rfl, h⟩
  | succ k ih =>
    obtain ⟨m, hstep, hrest⟩ := run_succ_next hrun
    obtain ⟨w, hw, hsame⟩ := step_sameRun h hstep
    rw [run_succ hw]
    exact ih hsame hrest

/-- Two machines in HEADER with the same input are on the same run, whatever else they hold. -/
theorem sameRun_of_header {s u : State} (hq : s.hostQueue = []) (hqu : u.hostQueue = []) (hp : s.phase = .header)
    (hpu : u.phase = .header) (hmem : u.inMem = s.inMem) (hn : u.n = s.n) (hpres : u.present = s.present) :
    SameRun s u :=
  ⟨⟨hq, hqu⟩, hmem, hn, hpres, ⟨hpu.trans hp.symm, fun hd => by simp [hp] at hd⟩, fun he => by simp [hp] at he⟩

/-- Settles O60: a machine in HEADER carries nothing of an earlier run into the next, and no step looks back. -/
theorem aRunDependsOnlyOnItsInput : Obligations.ARunDependsOnlyOnItsInput := by
  intro s u hq hqu hp hpu hmem hn hpres k t hrun
  obtain ⟨v, hv, hsame⟩ := run_sameRun k (sameRun_of_header hq hqu hp hpu hmem hn hpres) hrun
  exact ⟨v, hv, hsame.agree.result⟩

end Sys2Proof.Machine
end

section
/-! PROOFS for the memory family (spec/20_memory.md): the bytes of a payload token in IN and in the model's window, the
bytes of OUT and HIST a step may write, and what stays the host's. -/

namespace Sys2Proof

/-! ### The bytes of a payload token -/

/-- The first byte of a back-reference holds the length nibble above the distance (R64). -/
theorem highNibble_firstByte (n : Nibble) (dist : Dist) : highNibble (firstByte n dist) = n := by
  apply BitVec.eq_of_getLsbD_eq
  intro k hk
  simp only [highNibble, firstByte, BitVec.getLsbD_extractLsb', BitVec.getLsbD_append]
  simp [hk]

/-- The fields of a first byte make it up again (R64, R67). -/
theorem firstByte_fields (b1 b2 : Byte) : firstByte (highNibble b1) (distField b1 b2) = b1 := by
  apply BitVec.eq_of_getLsbD_eq
  intro k hk
  simp only [firstByte, highNibble, distField, lowNibble, BitVec.getLsbD_append, BitVec.getLsbD_extractLsb']
  by_cases h : k < 4
  · simp [h]
  · have h4 : k - 4 < 4 := by omega
    have hsum : 4 + (k - 4) = k := by omega
    simp [h, h4, hsum]

/-- The low byte of the distance is the second byte (R67). -/
theorem secondByte_distField (b1 b2 : Byte) : secondByte (distField b1 b2) = b2 := by
  apply BitVec.eq_of_getLsbD_eq
  intro k hk
  simp only [secondByte, distField, BitVec.getLsbD_extractLsb', BitVec.getLsbD_append]
  simp [hk]

/-- A first byte with a zero nibble begins a long back-reference (R65). -/
theorem decodeBackref_long {b1 : Byte} (hz : highNibble b1 = 0#4) (b2 b3 : Byte) (rest : List Byte) :
    decodeBackref (b1 :: b2 :: b3 :: rest) = .ok (.refl (distField b1 b2) b3, rest) := if_pos hz

/-- A first byte with any other nibble begins a short back-reference (R64). -/
theorem decodeBackref_short {b1 : Byte} (hz : highNibble b1 ≠ 0#4) (b2 : Byte) (rest : List Byte) :
    decodeBackref (b1 :: b2 :: rest) = .ok (.refs (highNibble b1) (distField b1 b2), rest) := if_neg hz

/-- Decoding the bytes of a well-formed payload token gives the token and leaves the bytes after it (R62 to R66). -/
theorem decode_encode_payload {i : Instr} (hwf : i.wf = true) (hmode : i.mode ≠ .header) (rest : List Byte) :
    decode i.mode (encode i ++ rest) = .ok (i, rest) := by
  cases i with
  | hdr dlen reserved => exact absurd rfl hmode
  | ctrl c => rfl
  | lit v => rfl
  | refs n dist =>
    have hn : highNibble (firstByte n dist) ≠ 0#4 := by simpa [Instr.wf, highNibble_firstByte] using hwf
    have h := decodeBackref_short hn (secondByte dist) rest
    rwa [highNibble_firstByte, Machine.distField_encoded] at h
  | refl dist m =>
    have h := decodeBackref_long (highNibble_firstByte 0#4 dist) (secondByte dist) m rest
    rwa [Machine.distField_encoded] at h

end Sys2Proof

namespace Sys2Proof.Machine

/-! ### The window of a payload token -/

/-- A byte within `PSIZE` is seen as IN holds it (R43). -/
theorem peek_of_read {s : State} {k : Nat} {v : Byte} (hk : s.ioff + k < s.psize)
    (hv : Memory.read .input s.inMem (16 + s.ioff + k) = some v) : s.peek k = some v := by
  simpa [State.peek, hk] using hv

/-- A payload token stored whole at the payload offset is what its window begins with (R43, R49, R66). -/
theorem window_of_stored {s : State} {i : Instr} (hmode : i.mode ≠ .header) (hfit : s.ioff + i.size ≤ s.psize)
    (hmem : ∀ k, k < i.size → Memory.read .input s.inMem (16 + s.ioff + k) = (encode i)[k]?) :
    ∃ rest, s.window i.mode = encode i ++ rest := by
  have hpeek : ∀ k v, k < i.size → (encode i)[k]? = some v → s.peek k = some v := fun k v hk hv =>
    peek_of_read (by omega) ((hmem k hk).trans hv)
  cases i with
  | hdr dlen reserved => exact absurd rfl hmode
  | ctrl c =>
    have h0 := hpeek 0 c Nat.one_pos rfl
    exact ⟨[], by simp [State.window, Instr.mode, h0, takeListed, encode]⟩
  | lit v =>
    have h0 := hpeek 0 v Nat.one_pos rfl
    exact ⟨[], by simp [State.window, Instr.mode, h0, takeListed, encode]⟩
  | refs n dist =>
    have h0 := hpeek 0 _ (by simp [Instr.size]) rfl
    have h1 := hpeek 1 _ (by simp [Instr.size]) rfl
    exact ⟨takeListed [s.peek 2], by simp [State.window, Instr.mode, h0, h1, takeListed, encode]⟩
  | refl dist m =>
    have h0 := hpeek 0 _ (by simp [Instr.size]) rfl
    have h1 := hpeek 1 _ (by simp [Instr.size]) rfl
    have h2 := hpeek 2 _ (by simp [Instr.size]) rfl
    exact ⟨[], by simp [State.window, Instr.mode, h0, h1, h2, takeListed, encode]⟩

/-- A core that fetches in the mode of a payload token runs the token stored at the payload offset. -/
theorem step_of_stored {s : State} {i : Instr} (hq : s.hostQueue = []) (hwf : i.wf = true) (hmode : i.mode ≠ .header)
    (hfit : s.ioff + i.size ≤ s.psize)
    (hmem : ∀ k, k < i.size → Memory.read .input s.inMem (16 + s.ioff + k) = (encode i)[k]?)
    (hmove : coreMove s = fetchToken i.mode s) : step s = exec i s := by
  obtain ⟨rest, hwin⟩ := window_of_stored hmode hfit hmem
  exact step_run hq hmove (hwin ▸ decode_encode_payload hwf hmode rest)

/-- Settles O46: in each of the three places the core is due a token of the stored one's mode. -/
theorem stepRunsTheTokenStoredAtThePayloadOffset : Obligations.StepRunsTheTokenStoredAtThePayloadOffset := by
  intro s i hq hp hwf hfit hmem hdue
  rcases hdue with ⟨hm, hs⟩ | ⟨hs, hsel⟩
  · exact step_of_stored hq hwf (by simp [hm]) hfit hmem (hm ▸ coreMove_control hp hs)
  · obtain ⟨htok, hmode⟩ : s.tokenMode = i.mode ∧ i.mode ≠ .header := by
      rcases hsel with ⟨hm, hc⟩ | ⟨hm, hc⟩ <;> simp [State.tokenMode, hc, hm]
    exact step_of_stored hq hwf hmode hfit hmem (htok ▸ coreMove_token hp hs)

/-! ### The padding of the window -/

/-- What a back-reference does after its head: a zero nibble takes the length from the third byte, any other is the
length (R107, R108). -/
def refTail (b1 b3 : Byte) (s : State) : Except State State :=
  if highNibble b1 = 0#4 then do
    let s ← payRead s
    refCopy (longLen b3) (setByte3 b3 s)
  else refCopy (shortLen (highNibble b1)) s

/-- The meaning of a back-reference in terms of the bytes it is decoded from (R116, R117). -/
def refOnBytes (b1 b2 b3 : Byte) (s : State) : Except State State := do
  let s ← refHead b1 b2 s
  refTail b1 b3 s

/-- The token three bytes decode to does what its bytes say. -/
theorem exec_decodedBackref {b1 b2 b3 : Byte} {i : Instr} {rest : List Byte}
    (h : decodeBackref [b1, b2, b3] = .ok (i, rest)) (s : State) : exec i s = settle (refOnBytes b1 b2 b3 s) := by
  by_cases hz : highNibble b1 = 0#4
  · obtain ⟨rfl, -⟩ := Prod.mk.inj (Except.ok.inj ((decodeBackref_long hz b2 b3 []).symm.trans h))
    have hb1 := firstByte_fields b1 b2
    rw [hz] at hb1
    simp only [exec, execRefl, longRef, refOnBytes, refTail, hb1, secondByte_distField, if_pos hz]
  · obtain ⟨rfl, -⟩ := Prod.mk.inj (Except.ok.inj ((decodeBackref_short hz b2 [b3]).symm.trans h))
    simp only [exec, execRefs, shortRef, refOnBytes, refTail, firstByte_fields, secondByte_distField, if_neg hz]

/-- With no payload byte left the head of a back-reference raises before it uses a byte (R43, R105). -/
theorem refHead_without_bytes (b1 b2 : Byte) {s : State} (h : s.psize ≤ s.ioff) :
    refHead b1 b2 s = .error (raise .payloadOverrun s) := by
  simp only [refHead, bind, Except.bind, payRead_error h]

/-- With one payload byte left the head of a back-reference raises before it uses a second (R43, R105). -/
theorem refHead_with_one_byte (b1 b2 : Byte) {s : State} (h : s.ioff < s.psize) (h' : s.psize ≤ s.ioff + 1) :
    refHead b1 b2 s = .error (raise .payloadOverrun (setByte1 b1 (advance s))) := by
  have h2 : (setByte1 b1 (advance s)).psize ≤ (setByte1 b1 (advance s)).ioff := h'
  simp only [refHead, bind, Except.bind, payRead_ok h, payRead_error h2]

/-- With two payload bytes left a back-reference does not use a third: its head raises, or the fetch of the third byte
does, or the nibble calls for none (R108, R109). -/
theorem refOnBytes_with_two_bytes (b1 b2 b3 c3 : Byte) {s : State} (h : s.ioff + 2 = s.psize) :
    refOnBytes b1 b2 b3 s = refOnBytes b1 b2 c3 s := by
  by_cases hg : gapOf (distField b1 b2) ≤ s.ooff
  · have hend : (headDone b1 b2 s).psize ≤ (headDone b1 b2 s).ioff := Nat.le_of_eq h.symm
    simp only [refOnBytes, refTail, refHead_ok (Nat.le_of_eq h) hg, bind, Except.bind, payRead_error hend]
  · obtain ⟨t, ht, -⟩ := refHead_error (b1 := b1) (b2 := b2) (s := s) (.inr (Nat.not_le.mp hg))
    simp only [refOnBytes, ht, bind, Except.bind]

/-- Bytes that agree within `PSIZE` give a back-reference the same meaning (R43, R109). -/
theorem refOnBytes_congr {b1 b2 b3 c1 c2 c3 : Byte} {s : State} (h1 : s.ioff < s.psize → b1 = c1)
    (h2 : s.ioff + 1 < s.psize → b2 = c2) (h3 : s.ioff + 2 < s.psize → b3 = c3) :
    refOnBytes b1 b2 b3 s = refOnBytes c1 c2 c3 s := by
  rcases Nat.lt_or_ge s.ioff s.psize with hp | hp
  · obtain rfl := h1 hp
    rcases Nat.lt_or_ge (s.ioff + 1) s.psize with hp' | hp'
    · obtain rfl := h2 hp'
      rcases Nat.lt_or_ge (s.ioff + 2) s.psize with hp'' | hp''
      · rw [h3 hp'']
      · exact refOnBytes_with_two_bytes b1 b2 b3 c3 (by omega)
    · simp only [refOnBytes, refHead_with_one_byte _ _ hp hp', bind, Except.bind]
  · simp only [refOnBytes, refHead_without_bytes _ _ hp, bind, Except.bind]

/-- CTRL does not use a byte past `PSIZE` (R92). -/
theorem execCtrl_congr {b c : Byte} {s : State} (h : s.ioff < s.psize → b = c) : execCtrl b s = execCtrl c s := by
  rcases Nat.lt_or_ge s.ioff s.psize with hp | hp
  · rw [h hp]
  · rw [execCtrl_overruns b hp, execCtrl_overruns c hp]

/-- LIT does not use a byte past `PSIZE` (R100, R101). -/
theorem execLit_congr {b c : Byte} {s : State} (h : s.ioff < s.psize → b = c) : execLit b s = execLit c s := by
  rcases Nat.lt_or_ge s.ioff s.psize with hp | hp
  · rw [h hp]
  · rcases Nat.lt_or_ge s.ooff s.dlen.toNat with hd | hd
    · rw [execLit_overruns b hd hp, execLit_overruns c hd hp]
    · rw [execLit_finishes b hd, execLit_finishes c hd]

/-- Settles O47, mode by mode. -/
theorem paddingBytesAreNeverUsed : Obligations.PaddingBytesAreNeverUsed := by
  intro m s b1 b2 b3 c1 c2 c3 i j rest left hm hi hj h1 h2 h3
  cases m with
  | header => exact absurd rfl hm
  | control =>
    cases hi
    cases hj
    exact execCtrl_congr h1
  | literal =>
    cases hi
    cases hj
    exact execLit_congr h1
  | backref => rw [exec_decodedBackref hi, exec_decodedBackref hj, refOnBytes_congr h1 h2 h3]

/-! ### The bytes a step writes to OUT and HIST -/

/-- Settles O51: the HIST view is kept by the write of one byte, which is all a step does to OUT and HIST. -/
theorem historyMirrorsTheOutput : Obligations.HistoryMirrorsTheOutput := by
  intro s t hcanon hview h
  obtain ⟨-, hout⟩ := hcanon
  exact (historyView_invariant.step ⟨hout, hview⟩ h).2

/-- Bytes written in order move the write cursor by their number. -/
@[simp] theorem emitAll_ooff (vs : List Byte) (s : State) : (emitAll vs s).ooff = s.ooff + vs.length := by
  induction vs generalizing s with
  | nil => rfl
  | cons v vs ih => rw [emitAll, ih, List.length_cons]; simp only [emit_ooff]; omega

/-- Bytes written in order leave every byte of OUT outside their destination alone (R50). -/
theorem emitAll_outByte_other (vs : List Byte) {s : State} {a : Nat} (ho : Memory.wf .output s.outMem = true)
    (h : a < s.ooff ∨ s.ooff + vs.length ≤ a) : (emitAll vs s).outByte a = s.outByte a := by
  induction vs generalizing s with
  | nil => rfl
  | cons v vs ih =>
    rw [List.length_cons] at h
    rw [emitAll, ih (wf_write ho) (by simp only [emit_ooff]; omega)]
    exact emit_outByte_other ho (by omega)

/-- Settles O54: a step of an iteration writes its bytes one after the other from the write cursor on. -/
theorem outputIsWrittenInOrderWithinBounds : Obligations.OutputIsWrittenInOrderWithinBounds := by
  intro s t hq hp hcanon hd h
  obtain ⟨-, hout, -⟩ := hcanon
  have hcase := (coreStep_cases (step_core hq ▸ h)).inExpand hp
  obtain ⟨vs, hw⟩ := hcase.output
  obtain ⟨hdlen, hpsize⟩ := hcase.bounds
  have hooff : t.ooff = s.ooff + vs.length := hw.ooff.trans (emitAll_ooff vs s)
  refine ⟨by omega, hcase.ooff hd, hdlen, hpsize, fun a ha => ?_⟩
  rw [hw.outByte, emitAll_outByte_other vs hout (hooff ▸ ha)]

/-! ### What stays the host's -/

/-- The core never writes `IN_PRESENT` or what the host's last read returned (R132). -/
theorem PhaseCase.hostPort {s t : State} (h : PhaseCase s t) :
    t.inPresent = s.inPresent ∧ t.readData = s.readData := by
  cases h with
  | rest _ ht => subst ht; exact ⟨rfl, rfl⟩
  | guard _ _ _ ht => subst ht; exact ⟨rfl, rfl⟩
  | hdr _ _ _ _ _ ht => subst ht; exact ⟨rfl, rfl⟩
  | expand _ h =>
    obtain ⟨hpres, -, -, -, -, -, hread, -⟩ := h.host
    exact ⟨hpres, hread⟩

/-- Settles O53: the input side and the host port stand in every phase. -/
theorem coreNeverWritesTheInput : Obligations.CoreNeverWritesTheInput := by
  intro s t hq h
  have hcase := (coreStep_cases (step_core hq ▸ h)).byPhase
  obtain ⟨hmem, hsize, hn, hpres, hqueue⟩ := hcase.input
  obtain ⟨hbit, hread⟩ := hcase.hostPort
  exact ⟨hmem, hsize, hbit, hn, hpres, hqueue.trans hq, hread⟩

/-- A read of a result returns its byte (R128). -/
theorem readOut_result {i : Nat} {s : State} (hv : s.outValid = true) (hi : i < s.dlen.toNat) :
    readOut i s = .next (returned (s.outByte i).toNat s) := by
  simp [readOut, hv, Nat.not_le.mpr hi]

/-- A read of a result past its end faults (R42, log 12). -/
theorem readOut_past_end {i : Nat} {s : State} (hv : s.outValid = true) (hi : s.dlen.toNat ≤ i) :
    readOut i s = .fault (.outIndex i) := by
  simp [readOut, hv, hi]

/-- A read of OUT that is no result is refused (R128, log 12). -/
theorem readOut_no_result (i : Nat) {s : State} (hv : ¬s.outValid = true) : readOut i s = .refused .outNotAResult := by
  simp [readOut, hv]

/-- Settles O14: the three outcomes of a read of OUT. -/
theorem outIsReadOnlyAsAResult : Obligations.OutIsReadOnlyAsAResult := by
  intro s i rest hq
  rw [step_host hq]
  have hvalid := outValid_iff { s with hostQueue := rest }
  refine ⟨fun hp hst hi => ?_, fun hp hst hi => ?_, fun hnot => ?_⟩
  · exact readOut_result (hvalid.mpr ⟨hp, hst⟩) hi
  · exact readOut_past_end (hvalid.mpr ⟨hp, hst⟩) hi
  · exact readOut_no_result i (mt hvalid.mp (by simpa [imp_iff_not_or] using hnot))

end Sys2Proof.Machine
end

section
/-! PROOFS for the encoding family (spec/30_encoding.md): the decoder and the encoder undo each other, the length and
the distance of a back-reference, the header bytes that are ignored, and that every payload decodes and runs. -/

namespace Sys2Proof

/-! ### The numbers of a header record and their bytes -/

/-- The bytes of a length are assembled to it again (R46). -/
theorem be32_bytes (d : Length32) :
    be32 (d.extractLsb' 24 8) (d.extractLsb' 16 8) (d.extractLsb' 8 8) (d.extractLsb' 0 8) = d := by
  rw [be32, BitVec.extractLsb'_append_extractLsb'_eq_extractLsb' (by decide : 24 = 16 + 8),
    BitVec.extractLsb'_append_extractLsb'_eq_extractLsb' (by decide : 16 = 8 + 8),
    BitVec.extractLsb'_append_extractLsb']

/-- The bytes of an assembled length are those it was assembled from (R46). -/
theorem bytes32_be32 (b0 b1 b2 b3 : Byte) : bytes32 (be32 b0 b1 b2 b3) = [b0, b1, b2, b3] := by
  simp only [bytes32, be32, BitVec.extractLsb'_append_eq_of_le, BitVec.extractLsb'_append_eq_right,
    BitVec.extractLsb'_eq_self, Nat.reduceLeDiff, Nat.reduceSub]

/-- The bytes of the assembled reserved number are those it was assembled from (R61). -/
theorem bytes64_be64 (b0 b1 b2 b3 b4 b5 b6 b7 : Byte) :
    bytes64 (be64 b0 b1 b2 b3 b4 b5 b6 b7) = [b0, b1, b2, b3, b4, b5, b6, b7] := by
  rw [bytes64, be64, BitVec.extractLsb'_append_eq_left, BitVec.extractLsb'_append_eq_right, bytes32_be32,
    bytes32_be32]
  rfl

/-- Bytes 4 to 15 of a header record decode to the length and the reserved number they encode (R61). -/
theorem decodeLength_bytes (d : Length32) (r : Reserved64) (rest : List Byte) :
    decodeLength (bytes32 d ++ bytes64 r ++ rest) = .ok (.hdr d r, rest) := by
  simp only [bytes32, bytes64, List.cons_append, List.nil_append, decodeLength, be64, be32_bytes,
    BitVec.extractLsb'_append_extractLsb']

/-- The magic in front is taken off (R61, R83). -/
theorem decodeHeader_magic (bs : List Byte) : decodeHeader (Config.magic ++ bs) = decodeLength bs := by
  simp only [Config.magic, List.cons_append, List.nil_append, decodeHeader, if_true]

/-- Where bytes 4 to 15 of a header record are accepted, they are the encoding of its two numbers (R61). -/
theorem decodeLength_ok {bs rest : List Byte} {i : Instr} (h : decodeLength bs = .ok (i, rest)) :
    ∃ d r, i = .hdr d r ∧ bs = bytes32 d ++ bytes64 r ++ rest := by
  unfold decodeLength at h
  split at h
  · next d0 d1 d2 d3 r0 r1 r2 r3 r4 r5 r6 r7 left =>
    obtain ⟨rfl, rfl⟩ := Prod.mk.inj (Except.ok.inj h)
    exact ⟨_, _, rfl, by rw [bytes32_be32, bytes64_be64]; rfl⟩
  · simp at h

/-- Where a header record is accepted, the bytes are its encoding (R61, R83). -/
theorem decodeHeader_encode {bs rest : List Byte} {i : Instr} (h : decodeHeader bs = .ok (i, rest)) :
    ∃ d r, i = .hdr d r ∧ bs = encode (.hdr d r) ++ rest := by
  unfold decodeHeader at h
  split at h
  · next m0 m1 m2 m3 left =>
    split at h
    · next hmagic =>
      obtain ⟨d, r, rfl, rfl⟩ := decodeLength_ok h
      refine ⟨d, r, rfl, ?_⟩
      rw [encode, ← hmagic, List.append_assoc, List.append_assoc, List.append_assoc]
      rfl
    · simp at h
  · simp at h

/-! ### The decoder and the encoder -/

/-- Settles O1: a header record is its magic and the bytes of its two numbers; the payload's tokens are
`decode_encode_payload`. -/
theorem decodeOfEncodeIsTheToken : Obligations.DecodeOfEncodeIsTheToken := by
  intro i rest hwf
  cases i with
  | hdr d r =>
    calc decodeHeader (Config.magic ++ bytes32 d ++ bytes64 r ++ rest)
      _ = decodeHeader (Config.magic ++ (bytes32 d ++ bytes64 r ++ rest)) := by simp only [List.append_assoc]
      _ = decodeLength (bytes32 d ++ bytes64 r ++ rest) := decodeHeader_magic _
      _ = .ok (.hdr d r, rest) := decodeLength_bytes d r rest
  | ctrl c => exact decode_encode_payload hwf nofun rest
  | lit v => exact decode_encode_payload hwf nofun rest
  | refs n dist => exact decode_encode_payload hwf nofun rest
  | refl dist m => exact decode_encode_payload hwf nofun rest

/-- Settles O2, mode by mode. -/
theorem decodedBytesAreTheEncoding : Obligations.DecodedBytesAreTheEncoding := by
  intro m bs i rest h
  cases m with
  | header =>
    obtain ⟨d, r, rfl, hbs⟩ := decodeHeader_encode h
    exact ⟨rfl, rfl, hbs⟩
  | control =>
    obtain ⟨c, rfl, hbs⟩ := decodeControl_ok h
    exact ⟨rfl, rfl, hbs⟩
  | literal =>
    obtain ⟨v, rfl, hbs⟩ := decodeLiteral_ok h
    exact ⟨rfl, rfl, hbs⟩
  | backref =>
    obtain ⟨b1, b2, ⟨hz, b3, rfl, hbs⟩ | ⟨hz, rfl, hbs⟩⟩ := decodeBackref_ok h
    · refine ⟨rfl, rfl, ?_⟩
      rw [hbs, encode, ← hz, firstByte_fields, secondByte_distField]
      rfl
    · refine ⟨bne_iff_ne.mpr hz, rfl, ?_⟩
      rw [hbs, encode, firstByte_fields, secondByte_distField]
      rfl

/-- Settles O6: the decoder is run on each word. -/
theorem listedWordsDecode : Obligations.ListedWordsDecode := ⟨rfl, rfl, rfl, rfl, rfl, rfl, rfl⟩

end Sys2Proof

namespace Sys2Proof.Machine

/-! ### The length and the distance of a back-reference -/

/-- The length nibble is the first byte divided by 16 (R68). -/
theorem highNibble_toNat (b : Byte) : (highNibble b).toNat = b.toNat / 16 := by
  rw [highNibble, BitVec.extractLsb'_toNat, Nat.shiftRight_eq_div_pow]
  have := b.isLt
  omega

/-- The length nibble is zero exactly for a first byte below 16 (R65, R68). -/
theorem highNibble_eq_zero_iff (b : Byte) : highNibble b = 0#4 ↔ b.toNat / 16 = 0 := by
  rw [← highNibble_toNat, BitVec.toNat_eq, BitVec.toNat_zero]

/-- Three bytes decode to a back-reference of the distance and the length they stand for, whatever they are
(R67, R68, R70). -/
theorem decode_backref (b1 b2 b3 : Byte) (rest : List Byte) : ∃ i left,
    decode .backref (b1 :: b2 :: b3 :: rest) = .ok (i, left) ∧
    copyOperands i =
      some (distField b1 b2, if b1.toNat / 16 = 0 then b3.toNat + 18 else b1.toNat / 16 + 2) := by
  by_cases hz : highNibble b1 = 0#4
  · refine ⟨_, _, decodeBackref_long hz b2 b3 rest, ?_⟩
    rw [if_pos ((highNibble_eq_zero_iff b1).mp hz)]
    rfl
  · refine ⟨_, _, decodeBackref_short hz b2 (b3 :: rest), ?_⟩
    rw [if_neg (mt (highNibble_eq_zero_iff b1).mpr hz), ← highNibble_toNat]
    rfl

/-- `REF` on a length that the short form can express (R72). -/
theorem ref_short (dist : Dist) {len : Nat} (h : 3 ≤ len) (h' : len ≤ 17) :
    Instr.ref dist len = some (.refs (BitVec.ofNat 4 (len - 2)) dist) := by
  rw [Instr.ref, if_neg (Nat.not_lt.mpr h), if_pos h']

/-- `REF` on a length that the long form alone can express (R72). -/
theorem ref_long (dist : Dist) {len : Nat} (h : 18 ≤ len) (h' : len ≤ 273) :
    Instr.ref dist len = some (.refl dist (BitVec.ofNat 8 (len - 18))) := by
  rw [Instr.ref, if_neg (by show ¬len < 3; omega), if_neg (by omega), if_pos h']

/-- `REF` on a length that neither form can express (R68, R72). -/
theorem ref_none (dist : Dist) {len : Nat} (h : ¬(3 ≤ len ∧ len ≤ 273)) : Instr.ref dist len = none := by
  unfold Instr.ref
  simp only [Config.lenMin, Config.lenMax]
  split
  · rfl
  · rw [if_neg (by omega), if_neg (by omega)]

/-- A nibble that is not zero stands for a length of 3 to 17 (R64, R68). -/
theorem three_le_shortLen {n : Nibble} (hn : n ≠ 0#4) : 3 ≤ shortLen n := by
  have hpos : n.toNat ≠ 0 := fun h => hn (BitVec.eq_of_toNat_eq h)
  rw [shortLen_eq]
  omega

/-- `REF` gives a well-formed back-reference from its distance and length, so no two have the same: the length decides
the form and its operand (R64, R65, R68). -/
theorem ref_of_copyOperands {i : Instr} {dist : Dist} {len : Nat} (hwf : i.wf = true)
    (h : copyOperands i = some (dist, len)) : Instr.ref dist len = some i := by
  cases i with
  | hdr d r => simp [copyOperands] at h
  | ctrl c => simp [copyOperands] at h
  | lit v => simp [copyOperands] at h
  | refs n d =>
    obtain ⟨rfl, rfl⟩ := Prod.mk.inj (Option.some.inj h)
    rw [ref_short d (three_le_shortLen (bne_iff_ne.mp hwf)) (shortLen_le n).2, shortLen_eq, Nat.add_sub_cancel,
      BitVec.ofNat_toNat, BitVec.setWidth_eq]
  | refl d m =>
    obtain ⟨rfl, rfl⟩ := Prod.mk.inj (Option.some.inj h)
    rw [ref_long d (longLen_le m).1 (longLen_le m).2, longLen_eq, Nat.add_sub_cancel,
      BitVec.ofNat_toNat, BitVec.setWidth_eq]

/-- For a length of 3 to 273 `REF` gives a well-formed token of that distance and length, of two bytes exactly when the
length is at most 17 (R68, R72). -/
theorem ref_wf_copyOperands (dist : Dist) {len : Nat} (h : 3 ≤ len) (h' : len ≤ 273) :
    ∃ i, Instr.ref dist len = some i ∧ i.wf = true ∧ copyOperands i = some (dist, len) ∧ (i.size = 2 ↔ len ≤ 17) := by
  rcases Nat.lt_or_ge 17 len with hlen | hlen
  · have hm : longLen (BitVec.ofNat 8 (len - 18)) = len := by
      rw [longLen_eq, BitVec.toNat_ofNat]
      omega
    refine ⟨_, ref_long dist hlen h', rfl, by rw [copyOperands, hm], ?_⟩
    simp [Instr.size, hlen]
  · have hn : shortLen (BitVec.ofNat 4 (len - 2)) = len := by
      rw [shortLen_eq, BitVec.toNat_ofNat]
      omega
    refine ⟨_, ref_short dist h hlen, ?_, by rw [copyOperands, hn], ?_⟩
    · rw [Instr.wf, bne_iff_ne]
      intro hz
      have htwo : shortLen 0#4 = 2 := rfl
      rw [hz] at hn
      omega
    · simp [Instr.size, hlen]

/-- Settles O4: `REF` answers the one token of a distance and a length, or none. -/
theorem eachCopyHasOneEncoding : Obligations.EachCopyHasOneEncoding := by
  refine ⟨fun b1 b2 b3 rest => ?_, fun dist len => ⟨?_, ?_, ?_⟩⟩
  · obtain ⟨i, left, hd, hc⟩ := decode_backref b1 b2 b3 rest
    exact ⟨i, left, _, hd, hc⟩
  · rintro ⟨h, h'⟩
    obtain ⟨i, href, hwf, hc, -⟩ := ref_wf_copyOperands dist h h'
    exact ⟨i, href, hwf, hc⟩
  · intro i j hi hj hci hcj
    exact Option.some.inj ((ref_of_copyOperands hi hci).symm.trans (ref_of_copyOperands hj hcj))
  · intro i hi hci
    have href := ref_of_copyOperands hi hci
    have hlen : 3 ≤ len ∧ len ≤ 273 := by
      by_contra hnot
      simp [ref_none dist hnot] at href
    obtain ⟨j, hj, -, -, hsize⟩ := ref_wf_copyOperands dist hlen.1 hlen.2
    obtain rfl : i = j := Option.some.inj (href.symm.trans hj)
    exact ⟨hlen.1, hlen.2, hsize⟩

/-- Settles O40. -/
theorem refsWithZeroNibbleIsRefused : Obligations.RefsWithZeroNibbleIsRefused := by
  intro dist s
  rw [exec, execRefs, if_pos rfl]

/-- The distance field as a number: the low nibble of the first byte above the second byte (R67). -/
theorem distField_toNat (b1 b2 : Byte) :
    (distField b1 b2).toNat = ((b1.toNat &&& 0x0F) <<< 8) ||| b2.toNat := by
  have hlow : (lowNibble b1).toNat = b1.toNat &&& 0x0F := by
    rw [lowNibble, BitVec.extractLsb'_toNat, Nat.shiftRight_zero]
    exact (Nat.and_two_pow_sub_one_eq_mod b1.toNat 4).symm
  rw [distField, BitVec.toNat_append, hlow]

/-- Settles O5: the field is 12 bits wide and the same function of the two bytes in both formats. -/
theorem distanceIsAssembledFromBothBytes : Obligations.DistanceIsAssembledFromBothBytes := by
  intro b1 b2 b3 rest
  have hlt := (distField b1 b2).isLt
  obtain ⟨i, left, hd, hc⟩ := decode_backref b1 b2 b3 rest
  exact ⟨distField_toNat b1 b2, by omega, rfl, by rw [gapOf_eq]; omega, by rw [gapOf_eq]; omega,
    i, left, _, _, hd, hc, rfl⟩

/-! ### The header bytes that are ignored -/

/-- The byte of IN at an address, zero where the host placed none. -/
def inByte (m : Memory) (a : Nat) : Byte := (Memory.read .input m a).getD 0#8

/-- Where the host placed a byte, IN reads it. -/
theorem read_eq_inByte {m : Memory} {a : Nat} (h : a < Memory.filledFrom 0 m) :
    Memory.read .input m a = some (inByte m a) := by
  obtain ⟨v, hv⟩ := read_filled (sp := .input) (m := m) (lo := 0) (by omega) (Nat.zero_le a)
  rw [inByte, hv, Option.getD_some]

/-- A window whose bytes all have a value holds them all. -/
theorem takeListed_map_some (bs : List Byte) : takeListed (bs.map some) = bs := by
  induction bs with
  | nil => rfl
  | cons b bs ih => rw [List.map_cons, takeListed, ih]

/-- Once IN really holds a header record, the header's window is its sixteen bytes. -/
theorem window_header {s : State} (h : Config.hdrSize ≤ Memory.filledFrom 0 s.inMem) :
    s.window .header = (List.range Config.hdrSize).map (inByte s.inMem) := by
  have hread : (List.range Config.hdrSize).map (Memory.read .input s.inMem) =
      ((List.range Config.hdrSize).map (inByte s.inMem)).map some := by
    rw [List.map_map]
    exact List.map_congr_left fun a ha => read_eq_inByte (Nat.lt_of_lt_of_le (List.mem_range.mp ha) h)
  rw [State.window, hread, takeListed_map_some]

/-- The first four bytes of a header record held in IN (R83). -/
def headerMagic (m : Memory) : List Byte := [inByte m 0, inByte m 1, inByte m 2, inByte m 3]

/-- The length in a header record held in IN (R84). -/
def headerLength (m : Memory) : Length32 := be32 (inByte m 4) (inByte m 5) (inByte m 6) (inByte m 7)

/-- The reserved number in a header record held in IN (R61). -/
def headerReserved (m : Memory) : Reserved64 :=
  be64 (inByte m 8) (inByte m 9) (inByte m 10) (inByte m 11) (inByte m 12) (inByte m 13) (inByte m 14) (inByte m 15)

/-- What the header's window decodes to, from its magic and its two numbers (R61, R83). -/
theorem decode_window_header {s : State} (h : Config.hdrSize ≤ Memory.filledFrom 0 s.inMem) :
    decode .header (s.window .header) =
      if headerMagic s.inMem = Config.magic then .ok (.hdr (headerLength s.inMem) (headerReserved s.inMem), [])
      else .error .badMagic := by
  rw [window_header h]
  rfl

/-- Past the guards a step runs HDR on the numbers of the header record, or raises on its magic (R83, R84). -/
theorem step_header {s : State} (hq : s.hostQueue = []) (hp : s.phase = .header) (hpres : s.present = true)
    (hn : Config.hdrSize ≤ s.n) (hf : s.n ≤ Memory.filledFrom 0 s.inMem) :
    step s =
      if headerMagic s.inMem = Config.magic then execHdr (headerLength s.inMem) (headerReserved s.inMem) s
      else .next (raise .badMagic s) := by
  have hmove := coreMove_header hp hpres hn hf
  have hdecode := decode_window_header (hn.trans hf)
  split
  · next h => exact step_run hq hmove (hdecode.trans (if_pos h))
  · next h => exact step_badMagic hq hmove (hdecode.trans (if_neg h))

/-- Settles O21: each guard looks at `N` and `present` alone, and `step_header` names the bytes HDR looks at. -/
theorem reservedHeaderBytesAreIgnored : Obligations.ReservedHeaderBytesAreIgnored := by
  intro s m hq hp hf hfm hsame
  have hbyte : ∀ a, a < 8 → inByte m a = inByte s.inMem a := fun a ha => by rw [inByte, inByte, hsame a (.inl ha)]
  have hmagic : headerMagic m = headerMagic s.inMem := by simp only [headerMagic, hbyte, Nat.reduceLT]
  have hlen : headerLength m = headerLength s.inMem := by simp only [headerLength, hbyte, Nat.reduceLT]
  by_cases hpres : s.present = true
  · rcases Nat.lt_or_ge s.n Config.hdrSize with hn | hn
    · exact ⟨_, step_short hq hp hpres hn, step_short (s := { s with inMem := m }) hq hp hpres hn⟩
    · rw [step_header hq hp hpres hn hf, step_header (s := { s with inMem := m }) hq hp hpres hn hfm, hmagic, hlen]
      split
      · exact ⟨_, rfl, rfl⟩
      · exact ⟨_, rfl, rfl⟩
  · have hpres' : s.present = false := Bool.eq_false_of_not_eq_true hpres
    exact ⟨_, step_absent hq hp hpres', step_absent (s := { s with inMem := m }) hq hp hpres'⟩

/-! ### The step runs the decoded token -/

/-- Settles O45, place by place. -/
theorem stepRunsTheDecodedToken : Obligations.StepRunsTheDecodedToken := fun _ _ _ hq =>
  ⟨fun hp hpres hn hf hd => step_run hq (coreMove_header hp hpres hn hf) hd,
    fun hp hs hd => step_run hq (coreMove_control hp hs) hd, fun hp hs hd => step_run hq (coreMove_token hp hs) hd⟩

/-! ### No payload stops the core -/

/-- Settles O3, mode by mode. -/
theorem everyPayloadPatternDecodes : Obligations.EveryPayloadPatternDecodes := by
  intro m b1 b2 b3 rest hm
  cases m with
  | header => exact absurd rfl hm
  | control => exact ⟨_, _, rfl⟩
  | literal => exact ⟨_, _, rfl⟩
  | backref =>
    obtain ⟨i, left, hd, -⟩ := decode_backref b1 b2 b3 rest
    exact ⟨i, left, hd⟩

/-- In a run that was launched on bytes IN really holds, every byte of a payload window has a value (R41). -/
theorem peek_isSome {s : State} (hl : s.launched) (hp : s.phase = .expand) (k : Nat) : ∃ v, s.peek k = some v := by
  obtain ⟨-, hn, hf⟩ := hl hp
  unfold State.peek
  split
  · exact read_filled (lo := 0) (by omega) (Nat.zero_le _)
  · exact ⟨_, rfl⟩

/-- In such a run the window decodes to a token, in every mode of the payload (R70). -/
theorem window_decodes {s : State} (hl : s.launched) (hp : s.phase = .expand) {m : Mode} (hm : m ≠ .header) :
    ∃ i rest, decode m (s.window m) = .ok (i, rest) := by
  obtain ⟨b1, h1⟩ := peek_isSome hl hp 0
  obtain ⟨b2, h2⟩ := peek_isSome hl hp 1
  obtain ⟨b3, h3⟩ := peek_isSome hl hp 2
  cases m with
  | header => exact absurd rfl hm
  | control => exact ⟨.ctrl b1, [], by rw [State.window, h1]; rfl⟩
  | literal => exact ⟨.lit b1, [], by rw [State.window, h1]; rfl⟩
  | backref =>
    rw [State.window, h1, h2, h3]
    exact everyPayloadPatternDecodes .backref b1 b2 b3 [] hm

theorem settle_answers (r : Except State State) : Answers (settle r) := by
  cases r with
  | ok t => exact ⟨t, rfl⟩
  | error t => exact ⟨t, rfl⟩

/-- A well-formed token answers a next state in every state (R126). -/
theorem exec_answers {i : Instr} (hwf : i.wf = true) (s : State) : Answers (exec i s) := by
  cases i with
  | hdr d r => exact ⟨_, rfl⟩
  | ctrl c => exact settle_answers _
  | lit v =>
    rcases Nat.lt_or_ge s.ooff s.dlen.toNat with hd | hd
    · rw [exec, execLit, if_neg (Nat.not_le.mpr hd)]
      exact settle_answers _
    · exact ⟨_, execLit_finishes v hd⟩
  | refs n dist =>
    rw [exec, execRefs, if_neg (bne_iff_ne.mp hwf)]
    exact settle_answers _
  | refl dist m => exact settle_answers _

/-- A step that fetches a token of the payload answers a next state: the token read is well-formed (O2). -/
theorem step_payload_answers {s : State} {m : Mode} (hl : s.launched) (hq : s.hostQueue = []) (hp : s.phase = .expand)
    (hm : m ≠ .header) (hmove : coreMove s = fetchToken m s) : Answers (step s) := by
  obtain ⟨i, rest, hd⟩ := window_decodes hl hp hm
  obtain ⟨hwf, -⟩ := decodedBytesAreTheEncoding m _ i rest hd
  rw [step_run hq hmove hd]
  exact exec_answers hwf s

/-- The control bit selects a literal or a back-reference, never a header record (R93). -/
theorem tokenMode_ne_header (s : State) : s.tokenMode ≠ .header := by
  unfold State.tokenMode
  split <;> simp

/-- Settles O57, stage by stage. -/
theorem noPayloadStopsTheCore : Obligations.NoPayloadStopsTheCore := by
  intro s hinv hq hp
  obtain ⟨-, -, -, -, -, -, hl, -⟩ := hinv
  cases hs : s.stage with
  | loop => exact ⟨_, step_loop hq hp hs⟩
  | control => exact step_payload_answers hl hq hp (by simp) (coreMove_control hp hs)
  | token => exact step_payload_answers hl hq hp (tokenMode_ne_header s) (coreMove_token hp hs)

end Sys2Proof.Machine
end

section
/-! PROOFS for the header family (spec/40_header.md): START, the guards of the header validator, the magic, and the
meaning of HDR. -/

namespace Sys2Proof.Machine

/-! ### START -/

/-- A machine in IDLE or in DONE is not busy (R13). -/
theorem not_busy_of_idle_or_done {s : State} (h : s.phase = .idle ∨ s.phase = .done) : s.busy = false := by
  rcases h with h | h <;> rw [State.busy, h]

/-- START outside a run is accepted (R13, R80). -/
theorem writeCtrl_start {v : Nat} {s : State} (hv : v.testBit 0 = true) (hb : s.busy = false) :
    writeCtrl v s = start s.inPresent { s with inPresent := v.testBit 1 } := by
  rw [writeCtrl, if_pos (by rw [hv, hb]; rfl)]

/-- START in a write that leaves `IN_PRESENT` alone samples that bit and draws no free value (R14, R80). -/
theorem start_same (s : State) :
    start s.inPresent s = { s with phase := .header, n := s.inSize, present := s.inPresent } := by
  simp only [start, if_true]

/-- Settles O9: the write is an accepted START, whose other fields do not depend on the bit written. -/
theorem startBeginsARun : Obligations.StartBeginsARun := by
  intro s v rest hq hp hv
  have hstep : step s =
      .next (start s.inPresent { s with hostQueue := rest, inPresent := v.testBit 1 }) :=
    (step_host hq).trans (congrArg Host.Outcome.next (writeCtrl_start hv (not_busy_of_idle_or_done hp)))
  refine ⟨fun hbit => ?_, _, hstep, rfl⟩
  rw [hstep, hbit]
  exact congrArg Host.Outcome.next (start_same { s with hostQueue := rest })

/-! ### The guards -/

/-- Settles O17: `step_absent`, with the two writes of a raise. -/
theorem absentInputIsInvalidArgument : Obligations.AbsentInputIsInvalidArgument :=
  fun _ hq hp hpres => step_absent hq hp hpres

/-- Settles O18: `step_short`, with the two writes of a raise. -/
theorem shortInputIsTruncated : Obligations.ShortInputIsTruncated :=
  fun _ hq hp hpres hn => step_short hq hp hpres hn

/-! ### The magic and the length -/

/-- The first four bytes of a header record held in IN are the magic when IN reads so at each of their addresses
(R83). -/
theorem headerMagic_eq_magic_iff {m : Memory} (hf : 4 ≤ Memory.filledFrom 0 m) :
    headerMagic m = Config.magic ↔ ∀ k, k < 4 → Memory.read .input m k = Config.magic[k]? := by
  have hbyte : ∀ k, k < 4 → (headerMagic m)[k]? = Memory.read .input m k := fun k hk => by
    change ((List.range 4).map (inByte m))[k]? = _
    rw [read_eq_inByte (Nat.lt_of_lt_of_le hk hf), List.getElem?_map, List.getElem?_range hk, Option.map_some]
  refine ⟨fun heq k hk => by rw [← hbyte k hk, heq], fun hread => List.ext_getElem?' fun k hk => ?_⟩
  exact (hbyte k hk).trans (hread k hk)

/-- A byte appended below a bit vector is its lowest digit in base 256 (R8). -/
theorem append_byte_toNat {w : Nat} (x : BitVec w) (b : Byte) : (x ++ b).toNat = x.toNat * 2 ^ 8 + b.toNat := by
  rw [BitVec.toNat_append, ← Nat.shiftLeft_add_eq_or_of_lt b.isLt, Nat.shiftLeft_eq]

/-- The value of four bytes, the first the most significant (R8, R46). -/
theorem be32_toNat (b0 b1 b2 b3 : Byte) :
    (be32 b0 b1 b2 b3).toNat = b0.toNat * 2 ^ 24 + b1.toNat * 2 ^ 16 + b2.toNat * 2 ^ 8 + b3.toNat := by
  simp only [be32, append_byte_toNat]
  omega

/-- The length in a header record, where IN reads its bytes (R84). -/
theorem headerLength_of_read {m : Memory} {d0 d1 d2 d3 : Byte} (h0 : Memory.read .input m 4 = some d0)
    (h1 : Memory.read .input m 5 = some d1) (h2 : Memory.read .input m 6 = some d2)
    (h3 : Memory.read .input m 7 = some d3) : headerLength m = be32 d0 d1 d2 d3 := by
  simp only [headerLength, inByte, h0, h1, h2, h3, Option.getD_some]

/-- Settles O19: a byte that differs makes the first four bytes another word than the magic. -/
theorem wrongMagicIsNotThisFormat : Obligations.WrongMagicIsNotThisFormat := by
  intro s hq hp hpres hn hf ⟨k, hk, hne⟩
  have hmagic : headerMagic s.inMem ≠ Config.magic := fun heq =>
    hne ((headerMagic_eq_magic_iff (by omega)).mp heq k hk)
  rw [step_header hq hp hpres hn hf, if_neg hmagic]
  rfl

/-! ### HDR -/

/-- Decode start leaves OUT all zero (R51, R87). -/
theorem enterExpand_outByte (s : State) (i : Nat) : (enterExpand s).outByte i = 0#8 := rfl

/-- Settles O22: the values R87 gives, on a state that holds the length and `PSIZE`. -/
theorem hdrSetsUpTheRun : Obligations.HdrSetsUpTheRun := fun dlen _ s _ =>
  ⟨enterExpand { s with dlen := dlen, psize := s.n - 16 }, rfl, rfl, rfl, rfl, rfl, rfl, rfl, rfl,
    enterExpand_outByte _⟩

/-- Settles O23: entry to Phase 2 leaves each of them alone. -/
theorem hdrLeavesTheRestAlone : Obligations.HdrLeavesTheRestAlone := by
  intro dlen reserved s t h
  obtain rfl := execHdr_next (reserved := reserved) h
  exact ⟨rfl, rfl, rfl, rfl, rfl, rfl, rfl, fun _ => rfl⟩

/-- Settles O20: the step is HDR on the length of the header record, and O22 says what HDR sets. -/
theorem goodHeaderEntersPhaseTwo : Obligations.GoodHeaderEntersPhaseTwo := by
  intro s d0 d1 d2 d3 hq hp hpres hn hf hread h0 h1 h2 h3
  have hmagic : headerMagic s.inMem = Config.magic := (headerMagic_eq_magic_iff (by omega)).mpr hread
  obtain ⟨t, hexec, hdlen, hpsize, hioff, hooff, hmask, hphase, -, hout⟩ :=
    hdrSetsUpTheRun (headerLength s.inMem) (headerReserved s.inMem) s hn
  have hmem : t.inMem = s.inMem := execHdr_next (reserved := headerReserved s.inMem) hexec ▸ rfl
  refine ⟨t, ?_, ?_, hpsize, hioff, hooff, hmask, hphase, hout, hmem⟩
  · rw [step_header hq hp hpres hn hf, if_pos hmagic]
    exact hexec
  · rw [hdlen, headerLength_of_read h0 h1 h2 h3, be32_toNat]

end Sys2Proof.Machine
end

section
/-! PROOFS for the control family (spec/41_control.md): the loop guard and the mask shift, the control fetch, the
control bit, and that every token, every iteration and every run of Phase 2 gets on. -/

namespace Sys2Proof.Machine

/-! ### The mask shift and the loop guard -/

/-- The shift halves the mask as an unsigned number (R91). -/
theorem shiftMask_toNat (m : Mask) : (shiftMask m).toNat = m.toNat / 2 := by
  rw [shiftMask, BitVec.toNat_ushiftRight, Nat.shiftRight_one]

/-- A mask that halves to zero shifts to zero. -/
theorem shiftMask_eq_zero {m : Mask} (h : m.toNat / 2 = 0) : shiftMask m = 0#16 :=
  BitVec.eq_of_toNat_eq ((shiftMask_toNat m).trans h)

/-- With output owed and a mask that shifts to zero, a control byte is due (R91, R92). -/
theorem loopGuard_control {s : State} (hd : s.ooff < s.dlen.toNat) (hz : shiftMask s.mask = 0#16) :
    loopGuard s = { s with mask := 0#16, stage := .control } := by
  simp only [loopGuard_shift hd, hz, if_true]

/-- With output owed and a mask that does not shift to zero, a token is due (R91, R93). -/
theorem loopGuard_token {s : State} (hd : s.ooff < s.dlen.toNat) (hz : shiftMask s.mask ≠ 0#16) :
    loopGuard s = { s with mask := shiftMask s.mask, stage := .token } := by
  simp only [loopGuard_shift hd, if_neg hz]

/-- Settles O24: `loopGuard_done`, with the two writes of `finish OK`. -/
theorem loopEndsWhenOutputIsComplete : Obligations.LoopEndsWhenOutputIsComplete := fun _ hq hp hs hd =>
  (step_loop hq hp hs).trans (congrArg Host.Outcome.next (loopGuard_done hd))

/-- Settles O25. -/
theorem loopShiftsTheMask : Obligations.LoopShiftsTheMask := fun s hq hp hs hd =>
  ⟨_, (step_loop hq hp hs).trans (congrArg Host.Outcome.next (loopGuard_shift hd)), shiftMask_toNat s.mask, rfl⟩

/-! ### CTRL and the control fetch -/

/-- Settles O29. -/
theorem ctrlLoadsTheWindow : Obligations.CtrlLoadsTheWindow := fun c _ hp => execCtrl_loads c hp

/-- Settles O30. -/
theorem ctrlWithoutPayloadIsMalformed : Obligations.CtrlWithoutPayloadIsMalformed := fun c _ hp =>
  execCtrl_overruns c hp

/-- Settles O31: CTRL loads the window, which is no part of the frame, or raises. -/
theorem ctrlLeavesTheRestAlone : Obligations.CtrlLeavesTheRestAlone := by
  intro c s t h
  rcases execCtrl_next h with ⟨-, rfl⟩ | ⟨-, rfl⟩ <;>
    refine ⟨⟨rfl, rfl, rfl, rfl, rfl, rfl, rfl, rfl⟩, ⟨rfl, rfl⟩, ⟨rfl, rfl, rfl, rfl, rfl, rfl, rfl⟩,
      ⟨rfl, fun _ => rfl, fun _ => rfl⟩, ?_⟩
  · exact .inl ⟨rfl, rfl⟩
  · exact .inr ⟨⟨rfl, rfl⟩, ⟨rfl, rfl⟩, rfl⟩

/-- The control fetch with a payload byte left loads that byte (R92). -/
theorem step_control_loads {s : State} {c : Byte} (hq : s.hostQueue = []) (hp : s.phase = .expand)
    (hs : s.stage = .control) (hlt : s.ioff < s.psize) (hc : Memory.read .input s.inMem (16 + s.ioff) = some c) :
    step s = .next (loadWindow c (advance s)) := by
  have hmem : ∀ k, k < (Instr.ctrl c).size → Memory.read .input s.inMem (16 + s.ioff + k) = (encode (.ctrl c))[k]? := by
    intro k hk
    obtain rfl : k = 0 := Nat.lt_one_iff.mp hk
    exact hc
  exact (step_of_stored (i := .ctrl c) hq rfl (by simp [Instr.mode]) hlt hmem (coreMove_control hp hs)).trans
    (execCtrl_loads c hlt)

/-- The control fetch with no payload byte left decodes the padding, which CTRL does not use: it raises (R43, R92). -/
theorem step_control_overruns {s : State} (hq : s.hostQueue = []) (hp : s.phase = .expand) (hs : s.stage = .control)
    (hge : s.psize ≤ s.ioff) : step s = .next (raise .payloadOverrun s) := by
  have hpeek : s.peek 0 = some 0#8 := if_neg (Nat.not_lt.mpr hge)
  have hwin : s.window .control = [0#8] := by rw [State.window, hpeek]; rfl
  have hd : decode .control (s.window .control) = .ok (.ctrl 0#8, []) := by rw [hwin]; rfl
  exact (step_run hq (coreMove_control hp hs) hd).trans (execCtrl_overruns 0#8 hge)

/-- Settles O26: the loop guard makes a control byte due, and the control fetch loads it or raises. -/
theorem controlFetchReloadsTheWindow : Obligations.ControlFetchReloadsTheWindow := by
  intro s c hq hp hs hd hz
  have hguard : step s = .next { s with mask := 0#16, stage := .control } :=
    (step_loop hq hp hs).trans (congrArg Host.Outcome.next (loopGuard_control hd (shiftMask_eq_zero hz)))
  rw [run_succ hguard]
  refine ⟨fun hlt hc => ?_, fun hge => ?_⟩
  · exact run_succ (step_control_loads (s := { s with mask := 0#16, stage := .control }) hq hp rfl hlt hc) 0
  · exact run_succ (step_control_overruns (s := { s with mask := 0#16, stage := .control }) hq hp rfl hge) 0

/-! ### The control bit -/

/-- The control bit is set when `HEADER` and the low byte of `MASK` have a bit in common (R24, R93). -/
theorem cbit_iff (s : State) : s.cbit = true ↔ s.header &&& s.mask.setWidth 8 ≠ 0#8 := by
  rw [State.cbit, BitVec.setWidth_eq_extractLsb' (by decide), bne_iff_ne]

/-- Settles O27: the step fetches in the mode of the control bit. -/
theorem controlBitSelectsTheToken : Obligations.ControlBitSelectsTheToken := by
  intro s i rest hq hp hs
  have hmove := coreMove_token hp hs
  refine ⟨fun hbit hd => ?_, fun hbit hd => ?_⟩
  · rw [State.tokenMode, if_pos ((cbit_iff s).mpr hbit)] at hmove
    exact step_run hq hmove hd
  · rw [State.tokenMode, if_neg (mt (cbit_iff s).mp (not_not_intro hbit))] at hmove
    exact step_run hq hmove hd

/-- The reloaded mask, shifted `i` places, selects bit `7 - i` (R91). -/
theorem maskReload_shifted_low : ∀ i, i ≤ 7 → (Config.maskReload >>> i).setWidth 8 = BitVec.twoPow 8 (7 - i) := by
  decide

/-- Seven shifts do not take the reloaded mask to zero (R91). -/
theorem maskReload_shifted_ne_zero : ∀ i, i ≤ 7 → Config.maskReload >>> i ≠ 0#16 := by
  decide

/-- A mask that selects one bit makes the control bit that bit of `HEADER` (R24). -/
theorem cbit_of_twoPow {s : State} {j : Nat} (hj : j < 8) (hm : s.mask.setWidth 8 = BitVec.twoPow 8 j) :
    s.cbit = s.header.getLsbD j := by
  have hne : BitVec.twoPow 8 j ≠ 0#8 := fun h => by
    have hbit := congrArg (fun x => x.getLsbD j) h
    simp [hj] at hbit
  rw [Bool.eq_iff_iff, cbit_iff, hm, BitVec.and_twoPow]
  split
  · next hbit => simp [hbit, hne]
  · next hbit => simp [hbit]

/-- Settles O28: the reloaded mask goes down one bit a shift. -/
theorem controlBitsGoFromMostSignificantDown : Obligations.ControlBitsGoFromMostSignificantDown := by
  intro s i hi hm
  have hshift : shiftMask s.mask = Config.maskReload >>> (i + 1) := by rw [hm, shiftMask, BitVec.shiftRight_add]
  refine ⟨cbit_of_twoPow (by omega) (hm ▸ maskReload_shifted_low i hi), fun hq hp hs hd => ⟨fun hlt => ?_, ?_⟩⟩
  · have hne : shiftMask s.mask ≠ 0#16 := hshift ▸ maskReload_shifted_ne_zero (i + 1) hlt
    rw [step_loop hq hp hs, loopGuard_token hd hne, hshift]
  · rintro rfl
    have hz : shiftMask s.mask = 0#16 := hshift
    rw [step_loop hq hp hs, loopGuard_control hd hz]

/-! ### Every token and every run gets on -/

/-- Everything a step can do in EXPAND with no host move waiting. -/
theorem step_inExpand {s t : State} (hq : s.hostQueue = []) (hp : s.phase = .expand) (h : step s = .next t) :
    ExpandCase s t := (coreStep_cases (step_core hq ▸ h)).inExpand hp

/-- Settles O56: the only cases of a step at the token are the end of the run and a token that has produced output. -/
theorem everyTokenEndsOrProduces : Obligations.EveryTokenEndsOrProduces := by
  intro s t hq hp hs h
  cases step_inExpand hq hp h with
  | ended h => exact .inl h.phase
  | shifted hloop => simp [hs] at hloop
  | loaded hctrl => simp [hs] at hctrl
  | produced _ h => exact .inr ⟨h.phase.trans hp, h.stage, h.grows⟩

/-- Settles O59: of the cases of a step in EXPAND only the end of the run reaches DONE, and its OK needs `DLEN` bytes. -/
theorem okMeansTheOutputIsComplete : Obligations.OkMeansTheOutputIsComplete := by
  intro s t hq hp hle h hdone hok
  cases step_inExpand hq hp h with
  | ended h =>
    have hge : s.dlen.toNat ≤ s.ooff := by
      rcases h.status with hbad | ⟨-, hge⟩
      · simp [hok] at hbad
      · exact hge
    rw [h.out.ooff, h.bounds.1]
    exact Nat.le_antisymm hle hge
  | shifted _ _ ht => subst ht; simp [hp] at hdone
  | loaded _ _ _ ht => subst ht; simp [hp] at hdone
  | produced _ h => simp [h.phase, hp] at hdone

/-- How many steps an iteration takes at most from a stage on (R94, log 1). -/
def Stage.stepsLeft : Stage → Nat
  | .loop => 3
  | .control => 2
  | .token => 1

theorem Stage.stepsLeft_bounds (g : Stage) : 1 ≤ g.stepsLeft ∧ g.stepsLeft ≤ 3 := by
  cases g <;> decide

/-- How many steps a run of Phase 2 takes at most: three for each byte of output still owed, and what is left of the
iteration begun (R97). -/
def State.stepsLeft (s : State) : Nat := 3 * (s.dlen.toNat - s.ooff) + s.stage.stepsLeft

/-- A step in EXPAND ends the run or leaves it in EXPAND with fewer steps left (R97). -/
theorem ExpandCase.progress {s t : State} (h : ExpandCase s t) (hp : s.phase = .expand) :
    (EndedWith .ok t ∨ EndedWith .malformedStream t) ∨ (t.phase = .expand ∧ t.stepsLeft < s.stepsLeft) := by
  cases h with
  | ended h =>
    rcases h.status with hbad | ⟨hok, -⟩
    · exact .inl (.inr ⟨h.phase, hbad⟩)
    · exact .inl (.inl ⟨h.phase, hok⟩)
  | shifted hs _ ht =>
    subst ht
    refine .inr ⟨hp, Nat.add_lt_add_left ?_ _⟩
    rw [hs]
    dsimp only
    split <;> decide
  | loaded hs _ _ ht =>
    subst ht
    refine .inr ⟨hp, Nat.add_lt_add_left ?_ _⟩
    rw [hs, loadWindow_stage]
    decide
  | produced hs h =>
    obtain ⟨hgrows, -⟩ := h.grows
    have hroom := h.room
    refine .inr ⟨h.phase.trans hp, ?_⟩
    simp only [State.stepsLeft, h.bounds.1, h.stage, hs, Stage.stepsLeft]
    omega

/-- A run of Phase 2 ends within the steps it has left (R97): each step answers a next state, in which the invariant
holds again and fewer are left. -/
theorem run_ends (n : Nat) {s : State} (hn : s.stepsLeft ≤ n) (hinv : s.Inv) (hq : s.hostQueue = [])
    (hp : s.phase = .expand) :
    ∃ k t, k ≤ n ∧ Sys2Proof.core.run k s = .next t ∧ (EndedWith .ok t ∨ EndedWith .malformedStream t) := by
  induction n generalizing s with
  | zero =>
    obtain ⟨hpos, -⟩ := s.stage.stepsLeft_bounds
    rw [State.stepsLeft] at hn
    omega
  | succ n ih =>
    obtain ⟨u, hstep⟩ := noPayloadStopsTheCore s hinv hq hp
    rcases (step_inExpand hq hp hstep).progress hp with hend | ⟨hpu, hless⟩
    · exact ⟨1, u, Nat.succ_le_succ n.zero_le, run_succ hstep 0, hend⟩
    · obtain ⟨k, t, hk, hrun, hend⟩ := ih (Nat.le_of_lt_succ (Nat.lt_of_lt_of_le hless hn))
        (everyStepKeepsTheInvariant s u hinv hstep) ((step_input hq hstep).queue.trans hq) hpu
      exact ⟨k + 1, t, Nat.succ_le_succ hk, (run_succ hstep k).trans hrun, hend⟩

/-- Settles O58: from any stage an iteration has at most three steps left. -/
theorem everyRunEnds : Obligations.EveryRunEnds := by
  intro s hinv hq hp
  obtain ⟨-, hstage⟩ := s.stage.stepsLeft_bounds
  exact run_ends _ (Nat.add_le_add_left hstage _) hinv hq hp

end Sys2Proof.Machine
end

section
/-! PROOFS for the literal family (spec/42_literal.md): LIT copies its byte, raises without payload, or ends a run whose
output is complete; and what it leaves alone. -/

namespace Sys2Proof.Machine

/-! ### LIT copies its byte -/

/-- The state after LIT has copied its byte (R100). -/
def litDone (b : Byte) (s : State) : State := endIteration (emit b (advance s))

/-- A copied literal stands at the old write cursor (R100). -/
theorem litDone_outByte_same (b : Byte) {s : State} (hc : s.memoryCanonical) : (litDone b s).outByte s.ooff = b := by
  obtain ⟨-, hout, -⟩ := hc
  exact emit_outByte_same (s := advance s) hout

/-- Every other byte of OUT reads as before a copied literal (R100). -/
theorem litDone_outByte_other (b : Byte) {s : State} (hc : s.memoryCanonical) {a : Nat} (ha : a ≠ s.ooff) :
    (litDone b s).outByte a = s.outByte a := by
  obtain ⟨-, hout, -⟩ := hc
  exact emit_outByte_other (s := advance s) hout ha

/-- A copied literal stands in the slot of the old write cursor (R44, R100). -/
theorem litDone_histByte_same (b : Byte) {s : State} (hc : s.memoryCanonical) :
    (litDone b s).histByte (histSlot s.ooff) = b := by
  obtain ⟨-, -, hhist⟩ := hc
  exact emit_histByte_same (s := advance s) hhist

/-- Every other slot of HIST reads as before a copied literal (R44, R100). -/
theorem litDone_histByte_other (b : Byte) {s : State} (hc : s.memoryCanonical) {j : Nat} (hj : j ≠ histSlot s.ooff) :
    (litDone b s).histByte j = s.histByte j := by
  obtain ⟨-, -, hhist⟩ := hc
  exact emit_histByte_other (s := advance s) hhist hj

/-- Settles O32. -/
theorem litCopiesOneByte : Obligations.LitCopiesOneByte := fun b s hc hp hd =>
  ⟨litDone b s, execLit_copies b hd hp, litDone_outByte_same b hc, litDone_histByte_same b hc, rfl, rfl, rfl, rfl, rfl⟩

/-! ### LIT ends the run -/

/-- Settles O33: `execLit_overruns`, with the two writes of `raise`. -/
theorem litWithoutPayloadIsMalformed : Obligations.LitWithoutPayloadIsMalformed := fun b _ hp hd =>
  execLit_overruns b hd hp

/-- Settles O34: `execLit_finishes`, with the two writes of `finish OK`. -/
theorem litAtTheEndFinishes : Obligations.LitAtTheEndFinishes := fun b _ hd => execLit_finishes b hd.ge

/-! ### The frame of LIT -/

/-- A run that has ended reads OUT and HIST as before, with the same write cursor (R96, R126). -/
theorem RunEnded.sameOutput {s t : State} (h : RunEnded s t) : SameOutput s t :=
  ⟨h.out.ooff, h.out.outByte, h.out.histByte⟩

/-- A run that has ended has done so with MalformedStream or with OK (R96, R126). -/
theorem RunEnded.endedWith {s t : State} (h : RunEnded s t) : EndedWith .malformedStream t ∨ EndedWith .ok t :=
  h.status.imp (fun hst => ⟨h.phase, hst⟩) fun ⟨hst, _⟩ => ⟨h.phase, hst⟩

/-- LIT has no operand registers: the back-reference registers keep their values (R100). -/
theorem execLit_sameRefRegs {b : Byte} {s t : State} (h : execLit b s = .next t) : SameRefRegs s t := by
  rcases execLit_next h with ⟨-, rfl⟩ | ⟨-, -, rfl⟩ | ⟨-, -, rfl⟩ <;> exact ⟨rfl, rfl, rfl, rfl, rfl, rfl, rfl⟩

/-- LIT copies its byte, or the run has ended where it stood (R100, R101). -/
theorem execLit_copied_or_ended {b : Byte} {s t : State} (h : execLit b s = .next t) :
    (Produced s t ∧ t = litDone b s) ∨ (RunEnded s t ∧ t.ioff = s.ioff) := by
  rcases execLit_next h with ⟨hd, rfl⟩ | ⟨hd, hp, rfl⟩ | ⟨-, -, rfl⟩
  · exact .inr ⟨runEnded_finishOk hd, rfl⟩
  · exact .inl ⟨produced_literal b hp hd, rfl⟩
  · exact .inr ⟨runEnded_payloadOverrun s, rfl⟩

/-- Settles O35: a copy writes at the old write cursor alone, and the end of a run writes nothing to OUT or HIST. -/
theorem litLeavesTheRestAlone : Obligations.LitLeavesTheRestAlone := by
  intro b s t hc h
  have hregs : SameRefRegs s t := execLit_sameRefRegs h
  rcases execLit_copied_or_ended h with ⟨hprod, rfl⟩ | ⟨hend, hioff⟩
  · exact ⟨hprod.host, hprod.bounds, hprod.window, hregs, fun _ => litDone_outByte_other b hc,
      fun _ => litDone_histByte_other b hc, .inl ⟨hprod.phase, hprod.status⟩⟩
  · exact ⟨hend.host, hend.bounds, hend.window, hregs, fun a _ => hend.out.outByte a, fun j _ => hend.out.histByte j,
      .inr ⟨hend.endedWith, hend.sameOutput, hioff⟩⟩

end Sys2Proof.Machine
end

section
/-! PROOFS for the back-reference family (spec/43_backref.md): the overlap law of the copy, its two allowed
realisations, and REFS and REFL: what they copy, when they raise, and what they leave alone. -/

namespace Sys2Proof.Machine

/-! ### One byte of the copy -/

/-- One byte of a copy stores at the write cursor the byte it reads at the source position (R112). -/
theorem copyByte_outByte_same {s : State} (ho : Memory.wf .output s.outMem = true) :
    (copyByte s).outByte s.ooff = s.outByte s.pos :=
  emit_outByte_same ho

/-- One byte of a copy leaves every other index of OUT alone (R112). -/
theorem copyByte_outByte_other {s : State} {a : Nat} (ho : Memory.wf .output s.outMem = true) (ha : a ≠ s.ooff) :
    (copyByte s).outByte a = s.outByte a :=
  emit_outByte_other ho ha

/-- One byte of a copy keeps a predicate of the output part that writing one byte keeps. -/
theorem OutputInvariant.copyByte {P : State → Prop} (hP : OutputInvariant P) {s : State} (h : P s) :
    P (copyByte s) :=
  hP.congr (Machine.emit (s.outByte s.pos) s) _ ⟨rfl, rfl, rfl, rfl⟩ (hP.emit _ s h)

/-! ### The overlap law (R113) -/

/-- The next index's place in the pattern of `GAP` bytes: one further on, or back at the first after the last (R113). -/
theorem succ_mod_cases (j : Nat) {gap : Nat} (hg : 0 < gap) :
    (j % gap + 1 < gap ∧ (j + 1) % gap = j % gap + 1) ∨ (j % gap + 1 = gap ∧ (j + 1) % gap = 0) := by
  have hle : j % gap + 1 ≤ gap := Nat.mod_lt j hg
  rcases hle.lt_or_eq with h | h
  · exact .inl ⟨h, by rw [← Nat.mod_add_mod, Nat.mod_eq_of_lt h]⟩
  · exact .inr ⟨h, by rw [← Nat.mod_add_mod, h, Nat.mod_self]⟩

/-- The pattern that ends at the cursor is still the pattern after one byte of the copy, one byte further on: its first
byte has become its last (R113). -/
theorem copyByte_pattern {s : State} (ho : Memory.wf .output s.outMem = true) {gap : Nat} (hg : 0 < gap)
    (hpos : s.pos + gap = s.ooff) (j : Nat) :
    (copyByte s).outByte (s.pos + 1 + j % gap) = s.outByte (s.pos + (j + 1) % gap) := by
  rcases succ_mod_cases j hg with ⟨hlt, hmod⟩ | ⟨heq, hmod⟩
  · rw [copyByte_outByte_other ho (by omega), hmod, Nat.add_assoc, Nat.add_comm 1]
  · have hcursor : s.pos + 1 + j % gap = s.ooff := by omega
    rw [hcursor, copyByte_outByte_same ho, hmod, Nat.add_zero]

/-- Byte `j` of the destination of a copy is byte `j mod GAP` of the pattern that ends at the cursor (R113). -/
theorem copyBytes_outByte_pattern {k gap : Nat} {s : State} (ho : Memory.wf .output s.outMem = true) (hg : 0 < gap)
    (hpos : s.pos + gap = s.ooff) {j : Nat} (hj : j < k) :
    (copyBytes k s).outByte (s.ooff + j) = s.outByte (s.pos + j % gap) := by
  induction k generalizing s j with
  | zero => exact absurd hj (Nat.not_lt_zero j)
  | succ k ih =>
    have ho' : Memory.wf .output (copyByte s).outMem = true := wf_write ho
    rw [copyBytes]
    cases j with
    | zero =>
      rw [Nat.add_zero, copyBytes_outByte_other k ho' (.inl (Nat.lt_succ_self s.ooff)), Nat.zero_mod, Nat.add_zero]
      exact copyByte_outByte_same ho
    | succ j =>
      have hrest := ih ho' (by rw [copyByte_pos, copyByte_ooff]; omega) (Nat.lt_of_succ_lt_succ hj)
      rw [copyByte_pos, copyByte_ooff, copyByte_pattern ho hg hpos] at hrest
      rw [← hrest, Nat.add_assoc, Nat.add_comm 1]

/-- Settles O42. -/
theorem overlapLaw : Obligations.OverlapLaw := by
  intro k gap s hc hg hpos
  obtain ⟨-, hout, -⟩ := hc
  exact ⟨fun j hj => copyBytes_outByte_pattern hout hg hpos hj, fun a ha => copyBytes_outByte_other k hout ha⟩

/-! ### Reading the first bytes at once (R114) -/

/-- A copy in two parts is one copy (R112). -/
theorem copyBytes_add (j k : Nat) (s : State) : copyBytes (j + k) s = copyBytes k (copyBytes j s) := by
  induction j generalizing s with
  | zero => rw [Nat.zero_add, copyBytes]
  | succ j ih => rw [Nat.succ_add, copyBytes, copyBytes, ih]

/-- Bytes below the write cursor read the same at once before and after one byte of a copy (R114). -/
theorem outSlice_copyByte {s : State} (ho : Memory.wf .output s.outMem = true) {i k : Nat} (h : i + k ≤ s.ooff) :
    outSlice (copyByte s) i k = outSlice s i k := by
  induction k generalizing i with
  | zero => rfl
  | succ k ih => rw [outSlice, outSlice, copyByte_outByte_other ho (by omega), ih (by omega)]

/-- A copy whose source ends at or before the write cursor may read all of its bytes at once (R114). -/
theorem emitAll_outSlice {s : State} (ho : Memory.wf .output s.outMem = true) {k : Nat} (h : s.pos + k ≤ s.ooff) :
    emitAll (outSlice s s.pos k) s = copyBytes k s := by
  induction k generalizing s with
  | zero => rfl
  | succ k ih =>
    have hrest := ih (s := copyByte s) (wf_write ho) (by rw [copyByte_pos, copyByte_ooff]; omega)
    rw [copyByte_pos, outSlice_copyByte ho (by omega)] at hrest
    exact hrest

/-- Settles O43: the first `min(LEN, GAP)` bytes have their sources below the write cursor. -/
theorem bulkPrefixCopyIsTheSame : Obligations.BulkPrefixCopyIsTheSame := by
  intro len s hc hpos
  obtain ⟨-, hout, -⟩ := hc
  have hsource : s.pos + min len s.gap ≤ s.ooff := by omega
  rw [copyBytesBulk, emitAll_outSlice hout hsource, ← copyBytes_add, Nat.add_sub_cancel' (Nat.min_le_left len s.gap)]

/-! ### The circular buffer (R115) -/

/-- The slot `GAP` behind the write pointer is the slot of the index `GAP` behind the write cursor (R115). -/
theorem histSource_eq {p w gap : Nat} (hw : gap ≤ Config.window) (hpos : p + gap = w) :
    histSource (histSlot w) gap = histSlot p := by
  simp only [histSource, histSlot, Config.window] at hw ⊢
  omega

/-- Under the HIST view the buffer holds the byte of OUT that lies `GAP` behind the cursor (R45, R115). -/
theorem histByte_source {s : State} (hv : s.historyView) (hg : 0 < s.gap) (hw : s.gap ≤ Config.window)
    (hpos : s.pos + s.gap = s.ooff) : s.histByte (histSource (histSlot s.ooff) s.gap) = s.outByte s.pos := by
  rw [histSource_eq hw hpos]
  exact hv s.pos (by omega) (by omega)

/-- Settles O44: each byte is the same from the buffer as from OUT, and copying it keeps the HIST view. -/
theorem circularBufferCopyIsTheSame : Obligations.CircularBufferCopyIsTheSame := by
  intro len s hc hv hg hw hpos
  obtain ⟨-, hcanon⟩ := hc
  induction len generalizing s with
  | zero => rfl
  | succ len ih =>
    have hbyte : copyByteHist s = copyByte s := by rw [copyByteHist, histByte_source hv hg hw hpos, copyByte]
    obtain ⟨hcanon', hv'⟩ := historyView_invariant.copyByte ⟨hcanon, hv⟩
    rw [copyBytesHist, copyBytes, hbyte]
    exact ih (copyByte s) hv' hg hw (by rw [copyByte_pos, copyByte_ooff, copyByte_gap]; omega) hcanon'

/-! ### REFS and REFL within their bounds -/

/-- `BYTE1` of a back-reference as a number (R64, R65). -/
theorem firstByte_toNat (n : Nibble) (dist : Dist) : (firstByte n dist).toNat = 16 * n.toNat + dist.toNat / 256 := by
  have hd := dist.isLt
  have hhigh : (dist.extractLsb' 8 4).toNat = dist.toNat / 256 := by
    rw [BitVec.extractLsb'_toNat, Nat.shiftRight_eq_div_pow]
    omega
  rw [firstByte, BitVec.toNat_append, ← Nat.shiftLeft_add_eq_or_of_lt (BitVec.isLt _), Nat.shiftLeft_eq, hhigh,
    Nat.mul_comm]

/-- `BYTE2` of a back-reference as a number (R64, R65). -/
theorem secondByte_toNat (dist : Dist) : (secondByte dist).toNat = dist.toNat % 256 :=
  BitVec.extractLsb'_toNat ..

/-- REFS completes when its bytes are there, its source lies within the output and its copy fits (R116). -/
theorem exec_refs_completes {n : Nibble} {dist : Dist} {s : State} (hn : n ≠ 0#4) (hp : s.ioff + 2 ≤ s.psize)
    (hg : gapOf dist ≤ s.ooff) (hr : s.ooff + shortLen n ≤ s.dlen.toNat) :
    exec (.refs n dist) s = .next (shortDone n dist s) := by
  rcases shortRef_cases n dist s with ⟨-, -, -, hok⟩ | ⟨hbad, -⟩
  · rw [exec, execRefs, if_neg hn, hok, settle]
  · omega

/-- REFL completes when its bytes are there, its source lies within the output and its copy fits (R117). -/
theorem exec_refl_completes {dist : Dist} {m : Byte} {s : State} (hp : s.ioff + 3 ≤ s.psize)
    (hg : gapOf dist ≤ s.ooff) (hr : s.ooff + longLen m ≤ s.dlen.toNat) :
    exec (.refl dist m) s = .next (longDone dist m s) := by
  rcases longRef_cases dist m s with ⟨-, -, -, hok⟩ | ⟨hbad, -⟩
  · rw [exec, execRefl, hok, settle]
  · omega

/-- A copy begun with the output part of `s` and `POS` at `OOFF - GAP` repeats the pattern that ends at the cursor of
`s` (R110, R113). -/
theorem endIteration_copyBytes_pattern {s u : State} {dist : Dist} (hc : s.memoryCanonical) (h : SameOut s u)
    (hpos : u.pos = s.ooff - gapOf dist) (hg : gapOf dist ≤ s.ooff) {k j : Nat} (hj : j < k) :
    (endIteration (copyBytes k u)).outByte (s.ooff + j) = s.outByte (s.ooff - gapOf dist + j % gapOf dist) := by
  obtain ⟨-, hout, -⟩ := hc
  have hu : u.pos + gapOf dist = u.ooff := by rw [hpos, h.ooff]; omega
  have hcopy := copyBytes_outByte_pattern (h.out ▸ hout) (Nat.succ_pos dist.toNat) hu hj
  rw [h.ooff, h.outByte, hpos] at hcopy
  exact hcopy

/-- A completed short back-reference repeats the pattern that ends at the cursor (R113, R116). -/
theorem shortDone_outByte {n : Nibble} {dist : Dist} {s : State} (hc : s.memoryCanonical) (hg : gapOf dist ≤ s.ooff)
    {k : Nat} (hk : k < shortLen n) :
    (shortDone n dist s).outByte (s.ooff + k) = s.outByte (s.ooff - gapOf dist + k % gapOf dist) := by
  refine endIteration_copyBytes_pattern hc ?_ ?_ hg hk
  · exact ⟨rfl, rfl, rfl, rfl⟩
  · simp only [headDone, distField_encoded]

/-- A completed long back-reference repeats the pattern that ends at the cursor (R113, R117). -/
theorem longDone_outByte {dist : Dist} {m : Byte} {s : State} (hc : s.memoryCanonical) (hg : gapOf dist ≤ s.ooff)
    {k : Nat} (hk : k < longLen m) :
    (longDone dist m s).outByte (s.ooff + k) = s.outByte (s.ooff - gapOf dist + k % gapOf dist) := by
  refine endIteration_copyBytes_pattern hc ?_ ?_ hg hk
  · exact ⟨rfl, rfl, rfl, rfl⟩
  · simp only [headDone, distField_encoded]

/-- Settles O36: REFS completes in `shortDone`, whose registers and bytes of OUT are known. -/
theorem refsCopiesThePattern : Obligations.RefsCopiesThePattern := by
  intro n dist s hn hc hp hg hr
  exact ⟨shortDone n dist s, exec_refs_completes hn hp hg hr, shortDone_ioff n dist s, shortDone_ooff n dist s,
    by rw [shortDone_byte1, firstByte_toNat], by rw [shortDone_byte2, secondByte_toNat], shortDone_dist n dist s,
    shortDone_gap n dist s, shortDone_len n dist s, shortDone_pos n dist s, fun _ hk => shortDone_outByte hc hg hk,
    shortDone_phase n dist s, shortDone_status n dist s, shortDone_stage n dist s⟩

/-- Settles O37: REFL completes in `longDone`, whose registers and bytes of OUT are known. -/
theorem reflCopiesThePattern : Obligations.ReflCopiesThePattern := by
  intro dist m s hc hp hg hr
  have hbyte1 : (longDone dist m s).byte1.toNat = dist.toNat / 256 := by
    rw [longDone_byte1, firstByte_toNat, BitVec.toNat_zero, Nat.mul_zero, Nat.zero_add]
  exact ⟨longDone dist m s, exec_refl_completes hp hg hr, longDone_ioff dist m s, longDone_ooff dist m s, hbyte1,
    by rw [longDone_byte2, secondByte_toNat], longDone_byte3 dist m s, longDone_dist dist m s, longDone_gap dist m s,
    longDone_len dist m s, longDone_pos dist m s, fun _ hk => longDone_outByte hc hg hk, longDone_phase dist m s,
    longDone_status dist m s, longDone_stage dist m s⟩

/-! ### REFS and REFL out of bounds -/

/-- A back-reference that raised has ended the run with MalformedStream (R110, R111, R124). -/
theorem RefRaised.endedWith {s t : State} (h : RefRaised s t) : EndedWith .malformedStream t := ⟨h.phase, h.status⟩

/-- Settles O38: out of bounds REFS raises, and a raise leaves OUT, HIST and the write cursor alone. -/
theorem refsIsMalformedOutOfBounds : Obligations.RefsIsMalformedOutOfBounds := by
  intro n dist s hn hbad
  rcases shortRef_cases n dist s with ⟨hp, hg, hr, -⟩ | ⟨-, t, herr, hraised, -⟩
  · rw [gapOf_eq] at hg
    rw [shortLen_eq] at hr
    omega
  · exact ⟨t, by rw [exec, execRefs, if_neg hn, herr, settle], hraised.endedWith, hraised.runEnded.sameOutput⟩

/-- Settles O39: out of bounds REFL raises, and a raise leaves OUT, HIST and the write cursor alone. -/
theorem reflIsMalformedOutOfBounds : Obligations.ReflIsMalformedOutOfBounds := by
  intro dist m s hbad
  rcases longRef_cases dist m s with ⟨hp, hg, hr, -⟩ | ⟨-, t, herr, hraised⟩
  · rw [gapOf_eq] at hg
    rw [longLen_eq] at hr
    omega
  · exact ⟨t, by rw [exec, execRefl, herr, settle], hraised.endedWith, hraised.runEnded.sameOutput⟩

/-! ### The frame of REFS and REFL -/

/-- Bytes written in order leave every slot of HIST alone that mirrors no byte of their destination (R44). -/
theorem emitAll_histByte_other (vs : List Byte) {s : State} {j : Nat} (hh : Memory.wf .history s.histMem = true)
    (h : ∀ k, k < vs.length → j ≠ histSlot (s.ooff + k)) : (emitAll vs s).histByte j = s.histByte j := by
  induction vs generalizing s with
  | nil => rfl
  | cons v vs ih =>
    rw [List.length_cons] at h
    rw [emitAll, ih (wf_write hh)]
    · exact emit_histByte_other hh (h 0 (Nat.succ_pos _))
    · intro k hk
      have hne := h (k + 1) (Nat.succ_lt_succ hk)
      rwa [Nat.add_comm k 1, ← Nat.add_assoc] at hne

/-- A token that has moved the write cursor by `len` wrote that many bytes, one after the other (R50). -/
theorem Produced.bytes {s t : State} {len : Nat} (h : Produced s t) (hlen : t.ooff = s.ooff + len) :
    ∃ vs, vs.length = len ∧ SameOut (emitAll vs s) t := by
  obtain ⟨vs, hw⟩ := h.out
  exact ⟨vs, Nat.add_left_cancel (((emitAll_ooff vs s).symm.trans hw.ooff.symm).trans hlen), hw⟩

/-- A back-reference of length `len` produces `len` bytes or raises, and its short form leaves `BYTE3` alone either way
(R116, R117). -/
theorem exec_backref_next {i : Instr} {dist : Dist} {len : Nat} {s t : State}
    (hi : copyOperands i = some (dist, len)) (h : exec i s = .next t) :
    ((Produced s t ∧ t.ooff = s.ooff + len) ∨ RefRaised s t) ∧ (i.size = 2 → t.byte3 = s.byte3) := by
  cases i with
  | hdr d r => simp [copyOperands] at hi
  | ctrl c => simp [copyOperands] at hi
  | lit v => simp [copyOperands] at hi
  | refs n d =>
    obtain ⟨rfl, rfl⟩ := Prod.mk.inj (Option.some.inj hi)
    rcases execRefs_next h with ⟨hp, -, hr, rfl⟩ | ⟨hraised, hbyte3⟩
    · exact ⟨.inl ⟨produced_shortDone hp hr, shortDone_ooff n d s⟩, fun _ => shortDone_byte3 n d s⟩
    · exact ⟨.inr hraised, fun _ => hbyte3⟩
  | refl d m =>
    obtain ⟨rfl, rfl⟩ := Prod.mk.inj (Option.some.inj hi)
    refine ⟨?_, fun hsize => by simp [Instr.size] at hsize⟩
    rcases execRefl_next h with ⟨hp, -, hr, rfl⟩ | hraised
    · exact .inl ⟨produced_longDone hp hr, longDone_ooff d m s⟩
    · exact .inr hraised

/-- Settles O41: a completed copy writes its `LEN` bytes from the old write cursor on, and a raise writes none. -/
theorem backrefsLeaveTheRestAlone : Obligations.BackrefsLeaveTheRestAlone := by
  intro i dist len s t hi hc h
  obtain ⟨-, hout, hhist⟩ := hc
  obtain ⟨⟨hprod, hlen⟩ | hraised, hbyte3⟩ := exec_backref_next hi h
  · obtain ⟨vs, rfl, hw⟩ := hprod.bytes hlen
    exact ⟨hprod.host, hprod.bounds, hprod.window,
      fun a ha => (hw.outByte a).trans (emitAll_outByte_other vs hout ha),
      fun j hj => (hw.histByte j).trans (emitAll_histByte_other vs hhist hj), hbyte3,
      .inl ⟨hprod.phase, hprod.status⟩⟩
  · obtain ⟨-, hsameOut, hsameHist⟩ := hraised.runEnded.sameOutput
    exact ⟨hraised.host, hraised.bounds, hraised.window, fun a _ => hsameOut a, fun j _ => hsameHist j, hbyte3,
      .inr hraised.endedWith⟩

end Sys2Proof.Machine
end

section
/-! PROOFS for the exceptions family (spec/60_exceptions.md): the core rests in IDLE and after the end of a run. -/

namespace Sys2Proof.Machine

/-- Settles O8: `step_rest`, whose two cases are the phases in which the core's move stays where it is. -/
theorem coreRestsInIdleAndDone : Obligations.CoreRestsInIdleAndDone := fun _ => step_rest

end Sys2Proof.Machine
end

section
/-! PROOFS for the reset and hazards family (spec/70_reset_and_hazards.md): hardware reset, START during a run, who
may write IN and when, and how long a result stays. -/

namespace Sys2Proof.Machine

/-- A machine in HEADER or in EXPAND is busy (R13). -/
theorem busy_of_header_or_expand {s : State} (h : s.phase = .header ∨ s.phase = .expand) : s.busy = true := by
  rcases h with h | h <;> rw [State.busy, h]

/-- A busy machine ignores START (R148). -/
theorem writeCtrl_busy (v : Nat) {s : State} (hb : s.busy = true) :
    writeCtrl v s = { s with inPresent := v.testBit 1 } := by
  rw [writeCtrl, hb, Bool.not_true, Bool.and_false, if_neg Bool.false_ne_true]

/-- Outside a run a byte placed in IN is stored (R142, R143). -/
theorem writeIn_outside_run (a : Nat) (v : Byte) {s : State} (hb : s.busy = false) :
    writeIn a v s = .next { s with inMem := Memory.write .input s.inMem a v } := by
  rw [writeIn, hb, if_neg Bool.false_ne_true]

/-- During a run it is refused (R143, log 11). -/
theorem writeIn_busy (a : Nat) (v : Byte) {s : State} (hb : s.busy = true) :
    writeIn a v s = .refused .hostTouchedInput := by
  rw [writeIn, if_pos hb]

/-- Settles O15: the byte written reads back, and IN keeps every other byte because it is canonical. -/
theorem hostPlacesInputOutsideARun : Obligations.HostPlacesInputOutsideARun := by
  intro s a v rest hq hcanon
  obtain ⟨hin, -, -⟩ := hcanon
  refine ⟨fun hp => ?_, fun hp => ?_⟩
  · exact ⟨_, (step_host hq).trans (writeIn_outside_run a v (not_busy_of_idle_or_done hp)), rfl, read_write_same hin,
      fun _ hb => read_write_other hin hb⟩
  · exact (step_host hq).trans (writeIn_busy a v (busy_of_header_or_expand hp))

/-- Settles O16: no host move but a reset or an accepted START reaches PHASE, STATUS, DLEN or OUT, and the core rests
in DONE. -/
theorem doneStaysUntilStartOrReset : Obligations.DoneStaysUntilStartOrReset := by
  intro s t hp h
  rcases step_cases h with ⟨m, rest, hq, hhost⟩ | ⟨hq, -⟩
  · cases hhost with
    | reset hm _ => exact .inl ⟨rest, hm ▸ hq⟩
    | start hm _ _ _ _ _ =>
      obtain ⟨v, rfl, hbit⟩ := hm
      exact .inr (.inl ⟨v, rest, hq, hbit⟩)
    | write _ _ _ ht => subst ht; exact .inr (.inr ⟨hp, rfl, rfl, rfl⟩)
    | read _ _ ht => subst ht; exact .inr (.inr ⟨hp, rfl, rfl, rfl⟩)
    | place _ _ _ ht => subst ht; exact .inr (.inr ⟨hp, rfl, rfl, rfl⟩)
  · have hrest : Host.Outcome.next s = .next t := (step_rest hq (.inr hp)).symm.trans h
    cases hrest
    exact .inr (.inr ⟨hp, rfl, rfl, rfl⟩)

/-- Settles O7: the step serves the reset on the state without that move, and `hardReset` keeps IN and the queue. -/
theorem resetGivesIdleWithoutInput : Obligations.ResetGivesIdleWithoutInput :=
  ⟨rfl, rfl, fun _ _ hq => ⟨_, step_host hq, rfl, rfl, rfl, rfl⟩⟩

/-- Settles O10: the write is one that a busy machine serves, so only `IN_PRESENT` is stored. -/
theorem startWhileBusyIsIgnored : Obligations.StartWhileBusyIsIgnored := fun _ v _ hq hp =>
  (step_host hq).trans (congrArg Host.Outcome.next (writeCtrl_busy v (busy_of_header_or_expand hp)))

end Sys2Proof.Machine
end
